-- ==== Sys2Proof/Word.lean ====
section
/-! DEFINITION. The bytes and 16-bit words of the SPE (spec/00_scope.md R8, R9): unsigned bit vectors, bit 0 the least
significant. -/

namespace Sys2Proof

/-- `W_BYTE` (R8): every byte of every stream and memory has 8 bits. -/
abbrev Byte := BitVec 8

/-- `W_OPCODE`, `W_MS`, `TICKS_BITS` (R7, R8): opcodes, millisecond counts and tick counts have 16 bits. -/
abbrev Word16 := BitVec 16

end Sys2Proof
end

