-- ==== Sys2Proof/Config.lean ====
section
/-! DEFINITION. What is fixed for the machine: the constants of spec/00_scope.md R7, and, as constants with no body,
the parameters the spec leaves OPEN (R8, R141) and the free values (spec/93_implementation_defined.md). -/

namespace Sys2Proof.Config

/-! ## Constants the document fixes (R7) -/

/-- `PKT_COMMAND` (R7): packet-type byte of a command frame. -/
abbrev pktCommand : Byte := 0x01
/-- `PKT_ACL` (R7): packet-type byte of an ACL data frame. -/
abbrev pktAcl : Byte := 0x02
/-- `PKT_EVENT` (R7): packet-type byte of an event frame. -/
abbrev pktEvent : Byte := 0x04
/-- `EVT_COMPLETE` (R7): event code of the command-complete shape. -/
abbrev evtComplete : Byte := 0x0e
/-- `EVT_STATUS` (R7): event code of the status-style shape (name: spec/90_conflicts.md C2). -/
abbrev evtStatus : Byte := 0x0f
/-- `EVT_PARAM_LEN` (R7): the parameter-length byte both event shapes must carry. -/
abbrev evtParamLen : Byte := 4
/-- `STATUS_COUNT_REQUIRED` (R7, R97, D24): the count byte the status-style shape must carry. -/
abbrev statusCountRequired : Byte := 0x00
/-- `OGF_BITS` (R7): width of the opcode group field. -/
abbrev ogfBits : Nat := 6
/-- `OCF_BITS` (R7): width of the opcode command field. -/
abbrev ocfBits : Nat := 10
/-- `PAYLOAD_MAX` (R7): the largest command payload. -/
abbrev payloadMax : Nat := 255
/-- `REC_HEADER` (R7): bytes of a firmware record before its payload. -/
abbrev recHeader : Nat := 3
/-- `ACL_CID` (R7): the fixed channel id of the ACL helper's packet. -/
abbrev aclCid : Nat := 0x0004
/-- `ADV_DATA_LEN` (R7): length of the fixed advertising-data structure. -/
abbrev advDataLen : Nat := 31
/-- `OCF_SET_BAUD` (R7): OCF of the vendor baud-rate command. -/
abbrev ocfSetBaud : BitVec ocfBits := 0x18
/-- `SCAN_WRAPPER_MS` (R7). -/
abbrev scanWrapperMs : Word16 := 60
/-- `ADV_WRAPPER_MS` (R7). -/
abbrev advWrapperMs : Word16 := 100
/-- `BDADDR_LEN` (R7): bytes in a device address. -/
abbrev bdaddrLen : Nat := 6
/-- `TICKS_BITS` (R7): width of a tick count. -/
abbrev ticksBits : Nat := 16
/-- `N_FAIL` (R7): the number of failure discriminants of `SENDCMD`. -/
abbrev nFail : Nat := 12
/-- `TICK_S` = 0.625 ms (R7, R120): one millisecond is `tickSMul / tickDiv` = 8/5 of a scan/advertise tick. -/
abbrev tickSMul : Nat := 8
/-- `TICK_C` = 1.25 ms (R7, R120): one millisecond is `tickCMul / tickDiv` = 4/5 of a connection tick. -/
abbrev tickCMul : Nat := 4
/-- The common divisor of the two tick scales (R120, R125 (e)). -/
abbrev tickDiv : Nat := 5

/-! ## Open parameters of the block (R8): no body, nothing can be proved of their values -/

/-- `RXQ_DEPTH - 1` (R8: OPEN, at least 1); DESIGN CHOICE, safe, log entry 5. -/
opaque rxqDepthPred : Nat
/-- `FW_BEGIN_OPCODE` (R8: OPEN); DESIGN CHOICE, safe, log entry 5. -/
opaque fwBeginOpcode : Word16

/-! ## Free values -/

/-- `PB[i]` for `i >= LEN` after a command issue (R26, U8: any value), fresh at every issue; DESIGN CHOICE, safe, log
entry 7. -/
opaque freePb : Nat → Nat → Byte
/-- `ticks` of an `MS2T.S` whose count does not fit 16 bits (R123: unspecified), a function of `ms`; DESIGN CHOICE,
unsafe, log entry 6. -/
opaque overflowTicks : Word16 → Word16
/-- The stale bytes in `RXQ` at a reset (R34, U13: any value, any length up to `RXQ_DEPTH`); DESIGN CHOICE, safe, log
entry 3. -/
opaque staleRx : Nat → List Byte
/-- `tx_full` at launch (R27, R34: a function of the link); DESIGN CHOICE, safe, log entry 3. -/
opaque launchTxFull : Bool

/-! ## Open parameters of the ACL frame (R66, R141, N14); DESIGN CHOICE, safe, log entry 14 -/

/-- Width in bytes of the connection handle field. -/
opaque aclHandleBytes : Nat
/-- Width in bytes of the total length field. -/
opaque aclTotalLenBytes : Nat
/-- Width in bytes of the L2CAP payload length field. -/
opaque aclL2capLenBytes : Nat
/-- Width in bytes of the channel id field. -/
opaque aclCidBytes : Nat
/-- Whether the channel id is sent least significant byte first. -/
opaque aclCidLittleEndian : Bool

/-! ## Open parameters of the clients (R141, D23): surrounding software, not part of the block; DESIGN CHOICE, log
entry 16, which says where it is unsafe

An open field is an open width and, for each value it may carry, the bytes at its indices. -/

/-- The client functions whose command opcode is open. -/
inductive ClientCmd where
  | setBdAddr
  | setLeEventMask
  | setScanParameters
  | setScanEnable
  | setAdvertiseEnable
  | setAdvertiseParameters
  | setAdvertiseData
  | createConnection
  deriving DecidableEq, Repr

/-- The fields of open width in the clients' payloads (R143 to R151). -/
inductive ClientField where
  | type
  | ownAddrType
  | filterPolicy
  | filterDuplicates
  | enabled
  | eventMask
  /-- The constant `ADV_CHANNEL_MAP`. -/
  | channelMap
  /-- The constant `ADV_RESERVED`: all reserved fields in one piece (DESIGN CHOICE, unsafe, log entry 16). -/
  | reserved
  /-- Bytes the rule neither names nor excludes, before the piece at this place of the payload. -/
  | gap (place : Nat)
  deriving DecidableEq, Repr

/-- The wrappers that fix arguments the document does not give (R152). -/
inductive Wrapper where
  | startActiveScanning
  | startActiveAdvertising
  | stopScanning
  deriving DecidableEq, Repr

/-- The parts of `ADV_DATA` whose width is open (R150). -/
inductive AdvPart where
  /-- The flags AD. -/
  | flags
  /-- What stands before the UUID in the 16-bit service UUID AD. -/
  | serviceHead
  /-- What stands before the UUID in the service-data AD. -/
  | dataHead
  /-- The UUID of the service-data AD. -/
  | dataUuid
  /-- What stands between UUID and URL. -/
  | dataMiddle
  /-- The literal URL string. -/
  | dataUrl
  deriving DecidableEq, Repr

/-- `OGF_VENDOR`. -/
opaque ogfVendor : BitVec ogfBits
/-- The OGF of every other command (for `setBdAddr` too: R143). -/
opaque clientOgf : ClientCmd → BitVec ogfBits
/-- The OCF of every other command. -/
opaque clientOcf : ClientCmd → BitVec ocfBits
/-- `LAYOUT`: the width of a field in a command's payload. -/
opaque clientFieldWidth : ClientCmd → ClientField → Nat
/-- `LAYOUT`: the byte of a field that carries a value, at an index. -/
opaque clientFieldByte : ClientCmd → ClientField → (value index : Nat) → Byte
/-- `LAYOUT`: the order of a payload's pieces. -/
opaque clientOrder : ClientCmd → (n : Nat) → Equiv.Perm (Fin n)
/-- Bytes of the payload of `setBaudRate` at rates other than 115200 (N13). -/
opaque baudRateLen : (rate : Nat) → Fin (payloadMax + 1)
/-- See `baudRateLen`. -/
opaque baudRateByte : (rate index : Nat) → Byte
/-- The constant value of `ADV_CHANNEL_MAP`. -/
opaque advChannelMap : Nat
/-- The constant value of `ADV_RESERVED`. -/
opaque advReserved : Nat
/-- The width of a part of `ADV_DATA`. -/
opaque advPartWidth : AdvPart → Nat
/-- The byte of a part of `ADV_DATA`, at an index. -/
opaque advPartByte : AdvPart → (index : Nat) → Byte
/-- The two bytes of the 16-bit service UUID in `ADV_DATA`. -/
opaque advServiceUuid : Vector Byte 2
/-- `SCAN_TYPE_ACTIVE`. -/
opaque scanTypeActive : Nat
/-- `ADV_TYPE_NONCONN_UNDIRECTED`. -/
opaque advTypeNonconnUndirected : Nat
/-- `own_addr_type` as each wrapper fixes it: two wrappers need not agree. -/
opaque wrapperOwnAddrType : Wrapper → Nat
/-- `filter_policy` as each wrapper fixes it: two wrappers need not agree. -/
opaque wrapperFilterPolicy : Wrapper → Nat
/-- `filter_duplicates` as each wrapper fixes it: two wrappers need not agree. -/
opaque wrapperFilterDuplicates : Wrapper → Nat
/-- The byte of the ACL packet's handle field for a connection handle, at an index. -/
opaque aclHandleByte : (connectionHandle index : Nat) → Byte
/-- The byte of the ACL packet's total length field, at an index. -/
opaque aclTotalLenByte : (index : Nat) → Byte
/-- The byte of the ACL packet's L2CAP length field, at an index. -/
opaque aclL2capLenByte : (index : Nat) → Byte
/-- `GATT_WRITE[0..4]`. -/
opaque gattWrite : Vector Byte 5

end Sys2Proof.Config
end

