-- ==== Sys2Proof/Syntax.lean ====
section
/-! DEFINITION. The rows of spec/opcode_table.json, one constructor each: the fourteen operations of R60, the two
reserved selectors of R68, and the five frames of R63 to R66. -/

namespace Sys2Proof

/-- One row of the opcode table with its operands (R61 for requests, R63 to R66 for frames). -/
inductive Instr where
  /-- `RXRDY` (sel 0x0, R74). -/
  | rxrdy
  /-- `RDBYTE` (sel 0x1, R75). -/
  | rdbyte
  /-- `WAITRD` (sel 0x2, R72). -/
  | waitrd
  /-- `WRBYTE b` (sel 0x3, R73). -/
  | wrbyte (b : Byte)
  /-- `FLUSH` (sel 0x4, R76). -/
  | flush
  /-- `MKOP ogf, ocf` (sel 0x5, R80). -/
  | mkop (ogf : BitVec Config.ogfBits) (ocf : BitVec Config.ocfBits)
  /-- `LO v` (sel 0x6, R81). -/
  | lo (v : Word16)
  /-- `HI v` (sel 0x7, R82). -/
  | hi (v : Word16)
  /-- `JOIN lo, hi` (sel 0x8, R83). -/
  | join (l h : Byte)
  /-- `SENDCMD opcode, n, [p0 ... p(n-1)]` (sel 0x9, R90); `n` is the length of `p`. -/
  | sendcmd (opcode : Word16) (p : List Byte)
  /-- `SWAP6 [a0 ... a5]` (sel 0xA, R115). -/
  | swap6 (a : Vector Byte Config.bdaddrLen)
  /-- `MS2T.S ms` (sel 0xB, R121). -/
  | ms2tS (ms : Word16)
  /-- `MS2T.C ms` (sel 0xC, R122). -/
  | ms2tC (ms : Word16)
  /-- `LOADFW` (sel 0xD, R130). -/
  | loadfw
  /-- Reserved selector 0xE (R68). -/
  | reservedE
  /-- Reserved selector 0xF (R68). -/
  | reservedF
  /-- Command frame, host to chip (R63): `[01][opcode_lo][opcode_hi][len][payload]`. -/
  | frameCmd (opcode : Word16) (payload : List Byte)
  /-- Status-style event frame, chip to host (R64): `[04][0f][04][00][00][echo_lo][echo_hi]`. -/
  | frameEvtStatus (echoLo echoHi : Byte)
  /-- Command-complete event frame, chip to host (R64): `[04][0e][04][count][echo_lo][echo_hi][00]`. -/
  | frameEvtComplete (count echoLo echoHi : Byte)
  /-- Firmware record in the image (R65): `[opcode_lo][opcode_hi][len][payload]`. -/
  | frameFwrec (opLo opHi : Byte) (payload : List Byte)
  /-- ACL frame, host to chip (R66): `[02]`, handle, total length, L2CAP length, channel id, 5 GATT bytes. -/
  | frameAcl (handle totalLen l2capLen gatt : List Byte)
  deriving DecidableEq, Repr

/-- Where an encoding stands: the host's request port (R60, R61), the two directions of the wire (R63, R64, R66), the
firmware image (R65). The same bytes mean different things in different spaces (R40). -/
inductive Space where
  | request
  | txWire
  | rxWire
  | image
  deriving DecidableEq, Repr

/-- The space an instruction is encoded in (the "format" column of spec/opcode_table.json). -/
def Instr.space : Instr → Space
  | .rxrdy | .rdbyte | .waitrd | .wrbyte _ | .flush | .mkop _ _ | .lo _ | .hi _ | .join _ _ | .sendcmd _ _
  | .swap6 _ | .ms2tS _ | .ms2tC _ | .loadfw | .reservedE | .reservedF => .request
  | .frameCmd _ _ | .frameAcl _ _ _ _ => .txWire
  | .frameEvtStatus _ _ | .frameEvtComplete _ _ _ => .rxWire
  | .frameFwrec _ _ _ => .image

end Sys2Proof
end

