-- ==== Sys2Proof/WellFormed.lean ====
section
/-! DEFINITION. Which instructions can be expressed (R61, R63 to R66). Operand widths are in the types of `Instr`; what
is left to check is the length of a payload (at most `PAYLOAD_MAX`), the nonzero count of the command-complete shape,
and the field widths of the ACL frame. -/

namespace Sys2Proof

/-- A payload a length byte can announce (R41, R61). -/
def payloadFits (p : List Byte) : Bool := decide (p.length ≤ Config.payloadMax)

/-- The checks of R61 and R63 to R66 that the operand types do not already make. -/
def Instr.wellFormed : Instr → Bool
  | .sendcmd _ p => payloadFits p
  | .frameCmd _ p => payloadFits p
  | .frameFwrec _ _ p => payloadFits p
  | .frameEvtComplete count _ _ => decide (count ≠ 0)
  | .frameAcl handle totalLen l2capLen gatt =>
    decide (gatt.length = 5) && (decide (handle.length = Config.aclHandleBytes) &&
      (decide (totalLen.length = Config.aclTotalLenBytes) && decide (l2capLen.length = Config.aclL2capLenBytes)))
  | .rxrdy | .rdbyte | .waitrd | .wrbyte _ | .flush | .mkop _ _ | .lo _ | .hi _ | .join _ _ | .swap6 _ | .ms2tS _
  | .ms2tC _ | .loadfw | .reservedE | .reservedF | .frameEvtStatus _ _ => true

end Sys2Proof
end

