-- ==== Sys2Proof/Decode.lean ====
section
/-! DEFINITION. The decoder, total on any bytes and rejecting by name, and the encoder. The wire frames and the firmware
record are the document's (R63 to R66, R71). The packing of a request record into bytes is the model's (the spec gives
none: R61, D1; DESIGN CHOICE, unsafe, log entry 1): byte 0 holds the selector of R60 in bits 3:0 and zeros above, then
each operand in whole bytes, least significant byte first, in the order of R61. -/

namespace Sys2Proof

/-! ## Bytes of a 16-bit value (R67 (b)) -/

/-- `v[7:0]` (R81). -/
def lowByte (v : Word16) : Byte := v.extractLsb' 0 8
/-- `v[15:8]` (R82). -/
def highByte (v : Word16) : Byte := v.extractLsb' 8 8
/-- `zext_16(lo) | (zext_16(hi) << 8)` (R83). -/
def joinBytes (l h : Byte) : Word16 := l.setWidth 16 ||| (h.setWidth 16 <<< 8)

/-- `w` bytes of `n`, least significant byte first. -/
def leBytes (w n : Nat) : List Byte := (List.range w).map fun i => BitVec.ofNat 8 (n >>> (8 * i))

/-- The channel id field of the ACL frame: `ACL_CID` in the open width and byte order (R66, R141). -/
def aclCidField : List Byte :=
  let b := leBytes Config.aclCidBytes Config.aclCid
  if Config.aclCidLittleEndian then b else b.reverse

/-! ## The decoder -/

/-- Why bytes are not an instruction. -/
inductive DecodeError where
  /-- The bytes end before the record or frame does. -/
  | truncated
  /-- Bits 7:4 of a request's first byte are not zero. -/
  | selectorPadding
  /-- A request carries an operand wider than its field (R61: it cannot be expressed). -/
  | operandRange
  /-- The first byte on the way to the chip is neither `PKT_COMMAND` nor `PKT_ACL` (R63, R66). -/
  | unknownTxFrame
  /-- The channel id of an ACL frame is not `ACL_CID` (R66). -/
  | wrongChannelId
  /-- The bytes from the chip are neither of the two accepted shapes (R64, R70). -/
  | unknownEvent
  deriving DecidableEq, Repr

/-- The result of decoding: an instruction and the bytes after it, or the reason there is none. -/
abbrev Decoded := Except DecodeError (Instr × List Byte)

/-- `len` payload bytes, then the rest. -/
def takePayload (len : Byte) (bs : List Byte) (k : List Byte → Instr) : Decoded :=
  if (bs.take len.toNat).length = len.toNat then .ok (k (bs.take len.toNat), bs.drop len.toNat)
  else .error .truncated

/-- One request record at the host port (R60, R61). -/
def decodeRequest : List Byte → Decoded
  | [] => .error .truncated
  | b0 :: bs =>
    match b0.toNat with
    | 0x0 => .ok (.rxrdy, bs)
    | 0x1 => .ok (.rdbyte, bs)
    | 0x2 => .ok (.waitrd, bs)
    | 0x3 => match bs with
      | b :: r => .ok (.wrbyte b, r)
      | _ => .error .truncated
    | 0x4 => .ok (.flush, bs)
    | 0x5 => match bs with
      | g :: l :: h :: r =>
        if g.toNat < 64 && h.toNat < 4 then .ok (.mkop (g.setWidth 6) ((joinBytes l h).setWidth 10), r)
        else .error .operandRange
      | _ => .error .truncated
    | 0x6 => match bs with
      | l :: h :: r => .ok (.lo (joinBytes l h), r)
      | _ => .error .truncated
    | 0x7 => match bs with
      | l :: h :: r => .ok (.hi (joinBytes l h), r)
      | _ => .error .truncated
    | 0x8 => match bs with
      | l :: h :: r => .ok (.join l h, r)
      | _ => .error .truncated
    | 0x9 => match bs with
      | l :: h :: n :: r => takePayload n r (.sendcmd (joinBytes l h))
      | _ => .error .truncated
    | 0xA => match bs with
      | a0 :: a1 :: a2 :: a3 :: a4 :: a5 :: r => .ok (.swap6 #v[a0, a1, a2, a3, a4, a5], r)
      | _ => .error .truncated
    | 0xB => match bs with
      | l :: h :: r => .ok (.ms2tS (joinBytes l h), r)
      | _ => .error .truncated
    | 0xC => match bs with
      | l :: h :: r => .ok (.ms2tC (joinBytes l h), r)
      | _ => .error .truncated
    | 0xD => .ok (.loadfw, bs)
    | 0xE => .ok (.reservedE, bs)
    | 0xF => .ok (.reservedF, bs)
    | _ => .error .selectorPadding

/-- The fields of an ACL frame after its packet-type byte (R66), at the open widths. -/
def decodeAcl (bs : List Byte) : Decoded :=
  let handle := bs.take Config.aclHandleBytes
  let bs := bs.drop Config.aclHandleBytes
  let totalLen := bs.take Config.aclTotalLenBytes
  let bs := bs.drop Config.aclTotalLenBytes
  let l2capLen := bs.take Config.aclL2capLenBytes
  let bs := bs.drop Config.aclL2capLenBytes
  let cid := bs.take Config.aclCidBytes
  let bs := bs.drop Config.aclCidBytes
  if bs.length < 5 then .error .truncated
  else if cid = aclCidField then .ok (.frameAcl handle totalLen l2capLen (bs.take 5), bs.drop 5)
  else .error .wrongChannelId

/-- One frame on the way to the chip (R63, R66; R71: "from its fourth byte: 4 + len"). -/
def decodeTxFrame : List Byte → Decoded
  | [] => .error .truncated
  | t :: bs =>
    if t = Config.pktCommand then
      match bs with
      | l :: h :: n :: r => takePayload n r (.frameCmd (joinBytes l h))
      | _ => .error .truncated
    else if t = Config.pktAcl then decodeAcl bs
    else .error .unknownTxFrame

/-- One event frame from the chip in one of the two accepted shapes (R64; the echo bytes are operands). -/
def decodeRxFrame : List Byte → Decoded
  | t :: e :: l :: x3 :: x4 :: x5 :: x6 :: r =>
    if t = Config.pktEvent && l = Config.evtParamLen then
      if e = Config.evtStatus && x3 = 0 && x4 = Config.statusCountRequired then .ok (.frameEvtStatus x5 x6, r)
      else if e = Config.evtComplete && x3 ≠ 0 && x6 = 0 then .ok (.frameEvtComplete x3 x4 x5, r)
      else .error .unknownEvent
    else .error .unknownEvent
  | _ => .error .truncated

/-- One firmware record of the image (R65; R71: "from its third byte: 3 + len"). -/
def decodeRecord : List Byte → Decoded
  | l :: h :: n :: r => takePayload n r (.frameFwrec l h)
  | _ => .error .truncated

/-- The decoder of each space. -/
def decode : Space → List Byte → Decoded
  | .request => decodeRequest
  | .txWire => decodeTxFrame
  | .rxWire => decodeRxFrame
  | .image => decodeRecord

/-! ## The encoder -/

/-- The length byte of a payload (R67 (e)). -/
def lenByte (p : List Byte) : Byte := BitVec.ofNat 8 p.length

/-- The bytes of an instruction in its space: R63 to R66 for the frames, the packing of log entry 1 for requests. -/
def encode : Instr → List Byte
  | .rxrdy => [0x00]
  | .rdbyte => [0x01]
  | .waitrd => [0x02]
  | .wrbyte b => [0x03, b]
  | .flush => [0x04]
  | .mkop ogf ocf => [0x05, ogf.setWidth 8, lowByte (ocf.setWidth 16), highByte (ocf.setWidth 16)]
  | .lo v => [0x06, lowByte v, highByte v]
  | .hi v => [0x07, lowByte v, highByte v]
  | .join l h => [0x08, l, h]
  | .sendcmd opcode p => [0x09, lowByte opcode, highByte opcode, lenByte p] ++ p
  | .swap6 a => [0x0A, a[0], a[1], a[2], a[3], a[4], a[5]]
  | .ms2tS ms => [0x0B, lowByte ms, highByte ms]
  | .ms2tC ms => [0x0C, lowByte ms, highByte ms]
  | .loadfw => [0x0D]
  | .reservedE => [0x0E]
  | .reservedF => [0x0F]
  | .frameCmd opcode p => [Config.pktCommand, lowByte opcode, highByte opcode, lenByte p] ++ p
  | .frameEvtStatus l h =>
    [Config.pktEvent, Config.evtStatus, Config.evtParamLen, 0x00, Config.statusCountRequired, l, h]
  | .frameEvtComplete c l h => [Config.pktEvent, Config.evtComplete, Config.evtParamLen, c, l, h, 0x00]
  | .frameFwrec l h p => [l, h, lenByte p] ++ p
  | .frameAcl handle totalLen l2capLen gatt =>
    Config.pktAcl :: (handle ++ (totalLen ++ (l2capLen ++ (aclCidField ++ gatt))))

/-! ## The opcode table's words -/

/-- The longest encoding in bytes: a `SENDCMD` request or a command frame with 255 payload bytes (R63). -/
def longestBytes : Nat := 259

/-- The space of a table row, told by its width: the two event rows are written over seven bytes, the firmware record
row fixes no bit, every other row is read at the request port. The one-byte words of `FRAME.CMD` (0x01) and `FRAME.ACL`
(0x02) are also those of `RDBYTE` and `WAITRD`, in another space; DESIGN CHOICE, unsafe, log entry 2. -/
def tableSpace (nbits : Nat) : Space :=
  if nbits = 0 then .image else if nbits = 56 then .rxWire else .request

/-- A table word as bytes, the first byte first, then zeros up to the longest instruction. The two event rows number
their seven bytes "byte 0 first", so byte 0 is their most significant byte; every other row is numbered from bit 0 of
the first byte. -/
def tableBytes (nbits w : Nat) : List Byte :=
  if nbits = 56 then (leBytes 7 w).reverse
  else leBytes ((nbits + 7) / 8) w ++ List.replicate longestBytes 0

/-- The instruction the decoder reads from a word of spec/opcode_table.json. -/
def decodeTableWord (nbits w : Nat) : Option Instr :=
  match decode (tableSpace nbits) (tableBytes nbits w) with
  | .ok (i, _) => some i
  | .error _ => none

end Sys2Proof
end

