-- ==== Sys2Proof/Machine/State.lean ====
section
/-! DEFINITION. Every piece of state the spec gives the machine (spec/10_state.md, spec/20_memory.md R40), the host's
and the link's moves as plain data, the reasons a step can stop, and the state after reset (R34). -/

namespace Sys2Proof.Machine

/-! ## The firmware image space (R40, R45) -/

/-- The bytes of the image space by offset, rising, none equal to what an unlisted offset reads as. -/
abbrev Memory := List Host.Cell

/-- What an offset nothing was placed at reads as (DESIGN CHOICE, unsafe, log entry 9). -/
def Memory.unlisted : Byte := 0x00

/-- Offsets strictly above `lo`, strictly rising, and no listed byte equal to `Memory.unlisted`. -/
def Memory.wfAbove : Option Nat → Memory → Bool
  | _, [] => true
  | lo, (a, b) :: m =>
    (match lo with
      | none => true
      | some l => decide (l < a)) && (decide (b ≠ Memory.unlisted) && Memory.wfAbove (some a) m)

/-- The canonical form of the image space. -/
def Memory.wf (m : Memory) : Bool := Memory.wfAbove none m

/-- The model's parameters (R8, R35): fixed before reset, carried in the state record because the interface gives `exec`
no other argument, written by no move. -/
structure Params where
  /-- `RXQ_DEPTH` (R8). -/
  rxqDepth : Nat
  /-- `FW_BEGIN_OPCODE` (R8). -/
  fwBeginOpcode : Word16
  /-- `FW_SIZE` (R8, R45). -/
  fwSize : Nat
  /-- `IMG` (R8, R45): the bytes at offsets 0 to `FW_SIZE - 1`. -/
  img : Memory
  deriving DecidableEq, Repr

/-- The ranges R8 gives the parameters, and the image in canonical form. -/
def Params.wf (p : Params) : Prop := 1 ≤ p.rxqDepth ∧ p.fwSize < 2 ^ 31 ∧ p.img.wf = true

/-! ## Registers and streams -/

/-- The sequencing register `phase` (R24). -/
inductive Phase where
  | idle
  | txType | txOpLo | txOpHi | txLen | txPayload
  | rxType | rxCode
  | sLen | sStatus | sCount | sEchoLo | sEchoHi
  | cLen | cCount | cEchoLo | cEchoHi | cStatus
  | tWaitrd | tWrbyte | tFlush
  | fwNext | fwSettle
  deriving DecidableEq, Repr

/-- The thirteen results of R160. -/
inductive ResultCode where
  | ok
  | unexpectedPacketType
  | badParamLength
  | deviceReportedError
  | badPacketCount
  | opcodeEchoMismatchLo
  | opcodeEchoMismatchHi
  | badParamLength2
  | zeroPacketCount
  | opcodeEchoMismatchLo2
  | opcodeEchoMismatchHi2
  | nonZeroStatus
  | unknownEventCode
  deriving DecidableEq, Repr

/-- A log event (R33); its text is not modelled (DEDUCED, safe, log entry 20). -/
inductive LogEvent where
  | deviceStatus (s : Byte)
  | fwAbort (code : BitVec 4)
  deriving DecidableEq, Repr

/-- The record an operation ends with (R62). -/
inductive Response where
  /-- `RXRDY`. -/
  | flag (f : Bool)
  /-- `RDBYTE`, `WAITRD`, `LO`, `HI`. -/
  | byte (b : Byte)
  /-- `WRBYTE`, `FLUSH`: no result field. -/
  | done
  /-- `MKOP`, `JOIN`. -/
  | word (v : Word16)
  /-- `SENDCMD`, `LOADFW`. -/
  | result (rcode : BitVec 4) (rinfo : Byte)
  /-- `SWAP6`. -/
  | address (r : Vector Byte Config.bdaddrLen)
  /-- `MS2T.S`, `MS2T.C`. -/
  | ticks (ticks : Word16) (lo hi : Byte) (ovf : Bool)
  deriving DecidableEq, Repr

/-! ## The moves of the host and the link (R20, R199) -/

/-- What the host asks for next, as bytes. -/
inductive HostItem where
  /-- A request record at the host port (R61). -/
  | request (bytes : List Byte)
  /-- A frame for the chip, as its wire bytes (R63, R66). -/
  | frame (bytes : List Byte)
  deriving DecidableEq, Repr

/-- A move of the link (R199); it loses nothing (DESIGN CHOICE, unsafe, log entry 19). -/
inductive LinkMove where
  /-- Deliver one byte to `RXQ`. -/
  | deliver (b : Byte)
  /-- Deliver the bytes of a frame, in order. -/
  | frame (bytes : List Byte)
  /-- Deliver these bytes over and over, without end, the host or the SPE moving once after each (R76 (c), R197; DESIGN
  CHOICE, safe, log entry 4). -/
  | traffic (bytes : List Byte)
  /-- Raise or drop `tx_full`. -/
  | txFull (v : Bool)
  deriving DecidableEq, Repr

/-- Which agent moves next (R20). -/
inductive Turn where
  /-- The SPE takes its next step, or holds. -/
  | spe
  /-- The host makes its next request, whether or not the SPE is idle (R68 (b)). -/
  | host
  /-- The link moves. -/
  | link (m : LinkMove)
  /-- `rst` is asserted and released (R190, R191). -/
  | rst
  deriving DecidableEq, Repr

/-! ## Why a step stops -/

/-- Accesses to a byte the spec says does not exist; both are safe, and no state that meets the invariant
`Sys2Proof.Machine.Inv` raises one. -/
inductive Fault where
  /-- Raised by a payload send step whose `IDX` is 255: `PB` has indices 0 to 254 (R26). Safe. -/
  | pbIndexOutOfRange
  /-- Raised by a record fetch that would pass the end of the image (R45). Safe. -/
  | imageReadPastEnd
  deriving DecidableEq, Repr

/-- Requests the spec gives no meaning. All are safe: the model stops. -/
inductive Refusal where
  /-- Raised by an arm of `exec` whose instruction has no meaning yet. Safe. -/
  | notModelled (mnemonic : String)
  /-- Raised by every request made while `BUSY = 1` (R68 (b)). Safe. -/
  | busy
  /-- Raised by the reserved selectors 0xE and 0xF (R68 (a)). Safe. -/
  | reservedSelector (sel : BitVec 4)
  /-- Raised by `RDBYTE` with `rx_ready = 0` (R75, U1). Safe. -/
  | rdbyteNotReady
  /-- Raised by `LOADFW` over an image that records do not tile exactly (R133, U4). Safe. -/
  | imageNotWellFormed
  /-- Raised by a command with more than `PAYLOAD_MAX` payload bytes, which no request can express (R61). Safe. -/
  | payloadTooLong
  /-- Raised by a firmware record met anywhere but between the commands of a `LOADFW` (R131). Safe. -/
  | recordOutsideLoad
  /-- Raised by a host request whose bytes are no request record and no frame. Safe. -/
  | undecodable (e : DecodeError)
  deriving DecidableEq, Repr

/-! ## The state -/

/-- The state of the SPE, of the link as the SPE observes it, and of the two boundaries. -/
structure State where
  /-- `phase` (R24). -/
  phase : Phase
  /-- `INFW` (R24): a `LOADFW` is in progress. -/
  inFw : Bool
  /-- The model's own bit: the command in progress is the begin-load command of `LOADFW` (R130; DEDUCED, safe, log entry
  8). -/
  fwBegin : Bool
  /-- `OPLO` (R22). -/
  opLo : Byte
  /-- `OPHI` (R22). -/
  opHi : Byte
  /-- `LEN` (R23). -/
  len : Byte
  /-- `IDX` (R23). -/
  idx : Byte
  /-- `PB[0..254]` (R26). -/
  pb : Vector Byte 255
  /-- `CURSOR` (R25). -/
  cursor : BitVec 32
  /-- `RCODE` (R30). -/
  rcode : BitVec 4
  /-- `RINFO` (R30). -/
  rinfo : Byte
  /-- The model's own latches: `code` and `info` of R130, the result of the last command of a `LOADFW`, kept until the
  load ends and writes them to `RCODE` and `RINFO` (DEDUCED, unsafe, log entry 13). -/
  fwCode : ResultCode
  /-- See `fwCode`. -/
  fwInfo : Byte
  /-- The model's own latch: the operand of a `WRBYTE` that waits (R73; DEDUCED, safe, log entry 8). -/
  portByte : Byte
  /-- `RXQ` (R31, R43), oldest byte first. -/
  rxq : List Byte
  /-- `TXS` (R31, R42), oldest byte first. -/
  txs : List Byte
  /-- `tx_full` (R27, R31). -/
  txFull : Bool
  /-- `LOGS` (R31, R33), oldest event first. -/
  logs : List LogEvent
  /-- The response records given at the host port (R62), oldest first (DESIGN CHOICE, safe, log entry 17). -/
  resps : List Response
  /-- The requests the host has still to make, the next one first (R20). -/
  hostq : List HostItem
  /-- The agents' turns, the next one first; where it is empty the SPE and a dutiful host move (DESIGN CHOICE, unsafe,
  log entry 4). -/
  sched : List Turn
  /-- The model's own counter for fresh free values (DESIGN CHOICE, safe, log entry 17). -/
  fresh : Nat
  /-- The parameters (R35). -/
  par : Params
  deriving DecidableEq, Repr

/-- The launch state of R34 for parameters `p`. The registers R34 leaves unspecified are zero (DESIGN CHOICE, unsafe,
log entry 10); what the link owns is a free value (DESIGN CHOICE, safe, log entry 3); no host request and no turn is
pending (DESIGN CHOICE, unsafe, log entry 4). -/
def State.resetWith (p : Params) : State where
  phase := .idle
  inFw := false
  fwBegin := false
  opLo := 0
  opHi := 0
  len := 0
  idx := 0
  pb := Vector.replicate 255 0
  cursor := 0
  rcode := 0
  rinfo := 0
  fwCode := .ok
  fwInfo := 0
  portByte := 0
  rxq := (Config.staleRx 0).take p.rxqDepth
  txs := []
  txFull := Config.launchTxFull
  logs := []
  resps := []
  hostq := []
  sched := []
  fresh := 1
  par := p

/-- The parameters at reset: `RXQ_DEPTH` and `FW_BEGIN_OPCODE` open, no image in place (DESIGN CHOICE, log entries 5,
safe, and 9, unsafe). -/
def Params.atReset : Params where
  rxqDepth := Config.rxqDepthPred + 1
  fwBeginOpcode := Config.fwBeginOpcode
  fwSize := 0
  img := []

/-- The machine right after reset (R34, R190). -/
def State.reset : State := State.resetWith Params.atReset

end Sys2Proof.Machine
end

