-- ==== Sys2Proof/Machine/Operands.lean ====
section
/-! DEFINITION. Operand assembly (R67): opcode composition, device-address reversal, tick counts and the lo/hi pack. The
byte split and join of R81 to R83 stand in Sys2Proof/Decode.lean. -/

namespace Sys2Proof.Machine

/-- `(zext_16(ogf) << 10) | zext_16(ocf)` (R67 (a), R80). -/
def composeOpcode (ogf : BitVec Config.ogfBits) (ocf : BitVec Config.ocfBits) : Word16 :=
  (ogf.setWidth 16 <<< Config.ocfBits) ||| ocf.setWidth 16

/-- `r[i] = a[5 - i]` (R67 (d), R115). -/
def swapAddress (a : Vector Byte Config.bdaddrLen) : Vector Byte Config.bdaddrLen :=
  #v[a[5], a[4], a[3], a[2], a[1], a[0]]

/-- The exact quotient `q = (ms * mul) div 5` (R121, R122), a natural number that does not wrap (R125). -/
def tickQuotient (mul : Nat) (ms : Word16) : Nat := ms.toNat * mul / Config.tickDiv

/-- The 16-bit tick count: `q` where it fits, a free value where it does not (R121, R123; DESIGN CHOICE, unsafe, log
entry 6). -/
def tickCount (mul : Nat) (ms : Word16) : Word16 :=
  if tickQuotient mul ms < 2 ^ Config.ticksBits then BitVec.ofNat Config.ticksBits (tickQuotient mul ms)
  else Config.overflowTicks ms

end Sys2Proof.Machine
end

