-- ==== Sys2Proof/Machine/Flags.lean ====
section
/-! DEFINITION. The flags: `rx_ready` and `tx_full` (R27), `BUSY` (R28), `OVF` (R29). There are no condition codes. -/

namespace Sys2Proof.Machine

/-- `rx_ready`: `RXQ` is not empty (R27). `tx_full` is a field of State. -/
def State.rxReady (s : State) : Bool := !s.rxq.isEmpty

/-- `BUSY = (phase != IDLE)` (R28). -/
def State.busy (s : State) : Bool := decide (s.phase ≠ .idle)

/-- `OVF`: the exact tick count does not fit 16 bits (R29, R123). -/
def tickOverflow (mul : Nat) (ms : Word16) : Bool := decide (2 ^ Config.ticksBits ≤ tickQuotient mul ms)

end Sys2Proof.Machine
end

