-- ==== Sys2Proof/Machine/Ops.lean ====
section
/-! DEFINITION. The shared operations: the image space, one byte sent or received, admitting a request and answering it,
the log, issuing a command, and ending one (`return Ok` and `raise Fail`, what stands in the place of exceptions). -/

namespace Sys2Proof.Machine

/-- The outcome of a step of this machine. -/
abbrev Result := Host.Outcome State Fault Refusal

/-! ## The image space (R45) -/

/-- The byte at an offset. -/
def Memory.read : Memory → Nat → Byte
  | [], _ => Memory.unlisted
  | (a, b) :: m, k => if k = a then b else Memory.read m k

/-- Place a byte at an offset, keeping the canonical form. No operation of the SPE does this (R45); it is how the
bootstrap collaborator puts an image in place (R192 step 3). -/
def Memory.write : Memory → Nat → Byte → Memory
  | [], k, v => if v = Memory.unlisted then [] else [(k, v)]
  | (a, b) :: m, k, v =>
    if k < a then (if v = Memory.unlisted then (a, b) :: m else (k, v) :: (a, b) :: m)
    else if k = a then (if v = Memory.unlisted then m else (k, v) :: m)
    else (a, b) :: Memory.write m k v

/-- Place bytes at rising offsets. -/
def Memory.writeBytes (m : Memory) (k : Nat) : List Byte → Memory
  | [] => m
  | b :: bs => Memory.writeBytes (m.write k b) (k + 1) bs

/-- `MemRead(addr, n)` (R10, R45): defined only inside the image. -/
def Params.memRead (p : Params) (addr n : Nat) : Option (List Byte) :=
  if addr + n ≤ p.fwSize then some ((List.range n).map fun i => p.img.read (addr + i)) else none

/-- Records tile the image exactly from offset `c` to `FW_SIZE` (R133); `fuel` bounds the number of records. -/
def Params.tiledFrom (p : Params) : Nat → Nat → Bool
  | 0, c => decide (c = p.fwSize)
  | fuel + 1, c =>
    if c = p.fwSize then true
    else if c + Config.recHeader ≤ p.fwSize then
      Params.tiledFrom p fuel (c + Config.recHeader + (p.img.read (c + 2)).toNat)
    else false

/-- `WF(IMG)` (R133). A record has at least three bytes, so `FW_SIZE` records are always enough. -/
def Params.imageWellFormed (p : Params) : Bool := p.tiledFrom p.fwSize 0

/-- The parameters with an image of these bytes in place (R192 step 3). -/
def Params.withImage (p : Params) (bs : List Byte) : Params :=
  { p with fwSize := bs.length, img := Memory.writeBytes [] 0 bs }

/-! ## The host port (R62, R68) -/

/-- Admit a request only while the SPE is idle (R68 (b)). -/
def ifIdle (s : State) (f : State → Result) : Result := if s.busy then .refused .busy else f s

/-- Give the response record an operation ends with (R62). -/
def respond (r : Response) (s : State) : State := { s with resps := s.resps ++ [r] }

/-- A pure operation: it changes nothing and answers in the step that issues it (R28). -/
def answer (r : Response) (s : State) : Result := ifIdle s fun s => .next (respond r s)

/-- Emit a log event (R33). -/
def log (e : LogEvent) (s : State) : State := { s with logs := s.logs ++ [e] }

/-! ## One byte on the link (R42, R43, R48) -/

/-- One send step (R73, `TxByte`): hold while `tx_full = 1`, else append the byte and go on with `k`. -/
def txByte (b : Byte) (k : State → State) (s : State) : Result :=
  if s.txFull then .next s else .next (k { s with txs := s.txs ++ [b] })

/-- One receive step (R72, `RxWait`): hold while `RXQ` is empty, else remove the oldest byte and go on with `k`. -/
def rxWait (k : Byte → State → State) (s : State) : Result :=
  match s.rxq with
  | [] => .next s
  | b :: q => .next (k b { s with rxq := q })

/-- Move to another phase. -/
def goto (p : Phase) (s : State) : State := { s with phase := p }

/-! ## Issuing a command (R22, R23, R26, R91) -/

/-- The payload buffer at a command issue: the payload, and unspecified values above it (R26, U8; DESIGN CHOICE, safe,
log entry 7). -/
def loadPayload (p : List Byte) (fresh : Nat) : Vector Byte 255 :=
  Vector.ofFn fun i => p.getD i.val (Config.freePb fresh i.val)

/-- Latch a command's operands and go to `TX_TYPE` (R91). -/
def issueCommand (opLo opHi : Byte) (p : List Byte) (s : State) : State :=
  { s with
    opLo := opLo, opHi := opHi, len := lenByte p, idx := 0, pb := loadPayload p s.fresh
    phase := .txType, fresh := s.fresh + 1 }

/-- Issue a command whose payload a length byte can announce (R41, R61). -/
def issueIfFits (opLo opHi : Byte) (p : List Byte) (s : State) : Result :=
  if p.length ≤ Config.payloadMax then .next (issueCommand opLo opHi p s) else .refused .payloadTooLong

/-! ## Ending a command (R105, R166): the place of exception entry and return -/

/-- The number of a result at the host port (R160). -/
def ResultCode.toBits : ResultCode → BitVec 4
  | .ok => 0
  | .unexpectedPacketType => 1
  | .badParamLength => 2
  | .deviceReportedError => 3
  | .badPacketCount => 4
  | .opcodeEchoMismatchLo => 5
  | .opcodeEchoMismatchHi => 6
  | .badParamLength2 => 7
  | .zeroPacketCount => 8
  | .opcodeEchoMismatchLo2 => 9
  | .opcodeEchoMismatchHi2 => 10
  | .nonZeroStatus => 11
  | .unknownEventCode => 12

/-- End a result-producing operation: `RCODE` and `RINFO` are written together, once (R30), `phase <- IDLE`, and the
response record is given (R62, R105). -/
def finish (code : ResultCode) (info : Byte) (s : State) : State :=
  respond (.result code.toBits info) { s with rcode := code.toBits, rinfo := info, phase := .idle, inFw := false }

/-- The abort path of `LOADFW` (R132): `(code, info)` of the failing command are kept (R130), the code is logged, then
the settle delay. -/
def abortLoad (code : ResultCode) (info : Byte) (s : State) : State :=
  log (.fwAbort code.toBits) { s with fwCode := code, fwInfo := info, phase := .fwSettle, fwBegin := false }

/-- `raise Fail(code, info)` (R10, R166), the only entry mechanism. Inside a `LOADFW` the operation, and with it the
write of `RCODE` and `RINFO`, ends after the settle delay (R30, R130; DEDUCED, unsafe, log entry 13). -/
def raiseFail (code : ResultCode) (info : Byte) (s : State) : State :=
  if s.inFw then abortLoad code info s else finish code info s

/-- A command of `LOADFW` ended with `Ok` (R130, R131): cursor 0 after begin-load, else past the record just sent. -/
def advanceLoad (s : State) : State :=
  { s with
    fwCode := .ok, fwInfo := 0
    cursor := if s.fwBegin then 0 else s.cursor + BitVec.ofNat 32 Config.recHeader + s.len.setWidth 32
    fwBegin := false, phase := .fwNext }

/-- `return Ok` (R10, R105); inside a `LOADFW` as `raiseFail` says. -/
def returnOk (s : State) : State := if s.inFw then advanceLoad s else finish .ok 0 s

/-- The settle delay ends (R130, R134): the load ends with the result of its last command. -/
def endLoad (s : State) : State := finish s.fwCode s.fwInfo s

/-- One check of the validation (R93 to R104): go on to the next phase, or fail. -/
def require (pass : Bool) (next : Phase) (code : ResultCode) (s : State) : State :=
  if pass then goto next s else raiseFail code 0 s

/-! ## Bytes from the link (R31, R57, R199) -/

/-- The link delivers bytes in order; those that find no room wait with the link, ahead of its later moves (R199: it
has no move that delivers into a full `RXQ`; DESIGN CHOICE, unsafe, log entry 4). -/
def deliverBytes (bs : List Byte) (s : State) : State :=
  let room := s.par.rxqDepth - s.rxq.length
  { s with
    rxq := s.rxq ++ bs.take room
    sched := ((bs.drop room).map fun b => .link (.deliver b)) ++ s.sched }

/-! ## What the host can read (R21, R199) -/

/-- The registers the host may read. -/
structure HostView where
  busy : Bool
  phase : Phase
  opLo : Byte
  opHi : Byte
  len : Byte
  idx : Byte
  cursor : BitVec 32
  rcode : BitVec 4
  rinfo : Byte
  deriving DecidableEq, Repr

/-- A read of the host-readable registers (R21, R30, R199): it changes nothing. -/
def State.hostView (s : State) : HostView :=
  { busy := s.busy, phase := s.phase, opLo := s.opLo, opHi := s.opHi, len := s.len, idx := s.idx
    cursor := s.cursor, rcode := s.rcode, rinfo := s.rinfo }

end Sys2Proof.Machine
end

