-- ==== Sys2Proof/Machine/ByteSwap.lean ====
section
/-! DEFINITION. U4, the byte-order swap (spec/43_byte_swap.md): `SWAP6`. -/

namespace Sys2Proof.Machine

/-- `SWAP6 [a0 ... a5] -> [r0 ... r5]` (R115). -/
def execSwap6 (a : Vector Byte Config.bdaddrLen) (s : State) : Result := answer (.address (swapAddress a)) s

end Sys2Proof.Machine
end

