-- ==== Sys2Proof/Machine/Transport.lean ====
section
/-! DEFINITION. U1, the transport operations (spec/40_transport.md): `RXRDY`, `RDBYTE`, `WAITRD`, `WRBYTE`, `FLUSH`. The
last three only enter their phase here; their byte steps are in Sys2Proof/Machine/Engine.lean. -/

namespace Sys2Proof.Machine

/-- `RXRDY -> f` (R74). -/
def execRxrdy (s : State) : Result := answer (.flag s.rxReady) s

/-- `RDBYTE -> byte` (R75): with `rx_ready = 0` the request has no meaning. -/
def execRdbyte (s : State) : Result :=
  ifIdle s fun s =>
    match s.rxq with
    | [] => .refused .rdbyteNotReady
    | b :: q => .next (respond (.byte b) { s with rxq := q })

/-- `WAITRD` (R72): `phase <- T_WAITRD`. -/
def execWaitrd (s : State) : Result := ifIdle s fun s => .next (goto .tWaitrd s)

/-- `WRBYTE b` (R73): `phase <- T_WRBYTE`, the operand kept while it waits. -/
def execWrbyte (b : Byte) (s : State) : Result := ifIdle s fun s => .next (goto .tWrbyte { s with portByte := b })

/-- `FLUSH` (R76): `phase <- T_FLUSH`. -/
def execFlush (s : State) : Result := ifIdle s fun s => .next (goto .tFlush s)

end Sys2Proof.Machine
end

