-- ==== Sys2Proof/Machine/Frames.lean ====
section
/-! DEFINITION. The frames of the opcode table as agents put them on the wire (R63, R64, R66), and the two reserved
selectors (R68). Log entry 2 (DESIGN CHOICE, unsafe) says why a frame
has a meaning of its own. -/

namespace Sys2Proof.Machine

/-- `FRAME.CMD` (R63, R92): the SPE puts a command frame on the wire only by running the command it frames, so the frame
is issued as that command. -/
def execFrameCmd (opcode : Word16) (p : List Byte) (s : State) : Result :=
  ifIdle s (issueIfFits (lowByte opcode) (highByte opcode) p)

/-- `FRAME.EVT.STATUS` (R64): the link delivers the seven bytes of the frame to `RXQ`, where the receive steps of a
command meet them (R95 to R99). -/
def execFrameEvtStatus (echoLo echoHi : Byte) (s : State) : Result :=
  .next (deliverBytes (encode (.frameEvtStatus echoLo echoHi)) s)

/-- `FRAME.EVT.COMPLETE` (R64): as `FRAME.EVT.STATUS`, for the command-complete shape (R100 to R104). -/
def execFrameEvtComplete (count echoLo echoHi : Byte) (s : State) : Result :=
  .next (deliverBytes (encode (.frameEvtComplete count echoLo echoHi)) s)

/-- The requests that send bytes one by one (R153). -/
def wrbyteItems (bs : List Byte) : List HostItem := bs.map fun b => .request (encode (.wrbyte b))

/-- `FRAME.ACL` (R66, R153): a sequence of `WRBYTE` operations, the first being `WRBYTE 0x02`, which starts now; the
host makes the others next. No response is awaited. -/
def execFrameAcl (handle totalLen l2capLen gatt : List Byte) (s : State) : Result :=
  execWrbyte Config.pktAcl
    { s with hostq := wrbyteItems (handle ++ (totalLen ++ (l2capLen ++ (aclCidField ++ gatt)))) ++ s.hostq }

/-- Selector 0xE (R68 (a)): no operation. -/
def execReservedE (_ : State) : Result := .refused (.reservedSelector 0xE)

/-- Selector 0xF (R68 (a)): no operation. -/
def execReservedF (_ : State) : Result := .refused (.reservedSelector 0xF)

end Sys2Proof.Machine
end

