-- ==== Sys2Proof/Machine/FwSequencer.lean ====
section
/-! DEFINITION. U6, the firmware record sequencer (spec/45_fw_sequencer.md): the issue of `LOADFW` and of each record.
The decision between commands and the settle step are in Sys2Proof/Machine/Engine.lean. -/

namespace Sys2Proof.Machine

/-- `LOADFW` (R130): over a well-formed image, `INFW <- 1` and the begin-load command with an empty payload. -/
def execLoadfw (s : State) : Result :=
  ifIdle s fun s =>
    if s.par.imageWellFormed then
      .next (issueCommand (lowByte s.par.fwBeginOpcode) (highByte s.par.fwBeginOpcode) []
        { s with inFw := true, fwBegin := true })
    else .refused .imageNotWellFormed

/-- A firmware record met between the commands of a `LOADFW` (R131): it is issued as a command, its two opcode bytes in
the order they are stored. Anywhere else a record has no meaning. -/
def execFrameFwrec (opLo opHi : Byte) (p : List Byte) (s : State) : Result :=
  if s.phase = .fwNext then issueIfFits opLo opHi p s else .refused .recordOutsideLoad

end Sys2Proof.Machine
end

