-- ==== Sys2Proof/Machine/OpcodeBytes.lean ====
section
/-! DEFINITION. U2, the opcode and byte utilities (spec/41_opcode_bytes.md): `MKOP`, `LO`, `HI`, `JOIN`. -/

namespace Sys2Proof.Machine

/-- `MKOP ogf, ocf -> v` (R80). -/
def execMkop (ogf : BitVec Config.ogfBits) (ocf : BitVec Config.ocfBits) (s : State) : Result :=
  answer (.word (composeOpcode ogf ocf)) s

/-- `LO v -> byte` (R81). -/
def execLo (v : Word16) (s : State) : Result := answer (.byte (lowByte v)) s

/-- `HI v -> byte` (R82). -/
def execHi (v : Word16) (s : State) : Result := answer (.byte (highByte v)) s

/-- `JOIN lo, hi -> v` (R83). -/
def execJoin (l h : Byte) (s : State) : Result := answer (.word (joinBytes l h)) s

end Sys2Proof.Machine
end

