-- ==== Sys2Proof/Machine/SendCommand.lean ====
section
/-! DEFINITION. U3, the command/event engine (spec/42_send_command.md): the issue of `SENDCMD`, its send steps and the
validation of the answer, one byte at a time. -/

namespace Sys2Proof.Machine

/-- `SENDCMD opcode, n, p` (R90, R91): the operands are latched; the frame and the answer follow byte by byte. -/
def execSendcmd (opcode : Word16) (p : List Byte) (s : State) : Result :=
  ifIdle s (issueIfFits (lowByte opcode) (highByte opcode) p)

/-- The phase after the length byte (R24, R92). -/
def afterLength (s : State) : State := goto (if 0 < s.len.toNat then .txPayload else .rxType) s

/-- The payload byte at `IDX` is sent: `IDX <- IDX + 1`, and the next phase (R23, R24, R92). -/
def afterPayloadByte (s : State) : State :=
  goto (if s.idx.toNat + 1 < s.len.toNat then .txPayload else .rxType) { s with idx := s.idx + 1 }

/-- Send `PB[IDX]` (R92); `PB` ends at index 254 (R26). -/
def sendPayloadByte (s : State) : Result :=
  if h : s.idx.toNat < 255 then txByte s.pb[s.idx.toNat] afterPayloadByte s else .fault .pbIndexOutOfRange

/-- The event-code branch (R94). -/
def onEventCode (b : Byte) (s : State) : State :=
  if b = Config.evtStatus then goto .sLen s
  else if b = Config.evtComplete then goto .cLen s
  else raiseFail .unknownEventCode 0 s

/-- The status byte of the status-style shape (R96): a nonzero one is logged and carried. -/
def onStatusByte (b : Byte) (s : State) : State :=
  if b = 0 then goto .sCount s else raiseFail .deviceReportedError b (log (.deviceStatus b) s)

/-- The last check of a shape (R99, R104). -/
def requireLast (pass : Bool) (code : ResultCode) (s : State) : State :=
  if pass then returnOk s else raiseFail code 0 s

/-- The check each receive phase makes of the byte it receives (R93 to R104). Other phases receive nothing. -/
def onEventByte (p : Phase) (b : Byte) (s : State) : State :=
  match p with
  | .rxType => require (decide (b = Config.pktEvent)) .rxCode .unexpectedPacketType s
  | .rxCode => onEventCode b s
  | .sLen => require (decide (b = Config.evtParamLen)) .sStatus .badParamLength s
  | .sStatus => onStatusByte b s
  | .sCount => require (decide (b = Config.statusCountRequired)) .sEchoLo .badPacketCount s
  | .sEchoLo => require (decide (b = s.opLo)) .sEchoHi .opcodeEchoMismatchLo s
  | .sEchoHi => requireLast (decide (b = s.opHi)) .opcodeEchoMismatchHi s
  | .cLen => require (decide (b = Config.evtParamLen)) .cCount .badParamLength2 s
  | .cCount => require (decide (b ≠ 0)) .cEchoLo .zeroPacketCount s
  | .cEchoLo => require (decide (b = s.opLo)) .cEchoHi .opcodeEchoMismatchLo2 s
  | .cEchoHi => require (decide (b = s.opHi)) .cStatus .opcodeEchoMismatchHi2 s
  | .cStatus => requireLast (decide (b = 0)) .nonZeroStatus s
  | .idle | .txType | .txOpLo | .txOpHi | .txLen | .txPayload | .tWaitrd | .tWrbyte | .tFlush | .fwNext | .fwSettle => s

end Sys2Proof.Machine
end

