-- ==== Sys2Proof/Machine/TickScaler.lean ====
section
/-! DEFINITION. U5, the tick scaler and the 16-bit pack (spec/44_tick_scaler.md): `MS2T.S`, `MS2T.C`. -/

namespace Sys2Proof.Machine

/-- The response of a conversion with `mul / 5` ticks a millisecond: the count, its lo and hi bytes, `OVF` (R121 to
R124). Where the count does not fit, `ticks` is a free value and its bytes are that value's bytes (DESIGN CHOICE,
unsafe, log entry 6). -/
def tickResponse (mul : Nat) (ms : Word16) : Response :=
  .ticks (tickCount mul ms) (lowByte (tickCount mul ms)) (highByte (tickCount mul ms)) (tickOverflow mul ms)

/-- `MS2T.S ms` (R121): the 0.625 ms tick. -/
def execMs2tS (ms : Word16) (s : State) : Result := answer (tickResponse Config.tickSMul ms) s

/-- `MS2T.C ms` (R122): the 1.25 ms tick. -/
def execMs2tC (ms : Word16) (s : State) : Result := answer (tickResponse Config.tickCMul ms) s

end Sys2Proof.Machine
end

