-- ==== Sys2Proof/Machine/Dispatch.lean ====
section
/-! DEFINITION. One arm per row of spec/opcode_table.json. -/

namespace Sys2Proof.Machine

def exec (i : Instr) (s : State) : Host.Outcome State Fault Refusal :=
  match i with
  | .rxrdy => Sys2Proof.Machine.execRxrdy s
  | .rdbyte => Sys2Proof.Machine.execRdbyte s
  | .waitrd => Sys2Proof.Machine.execWaitrd s
  | .wrbyte b => Sys2Proof.Machine.execWrbyte b s
  | .flush => Sys2Proof.Machine.execFlush s
  | .mkop ogf ocf => Sys2Proof.Machine.execMkop ogf ocf s
  | .lo v => Sys2Proof.Machine.execLo v s
  | .hi v => Sys2Proof.Machine.execHi v s
  | .join l h => Sys2Proof.Machine.execJoin l h s
  | .sendcmd opcode p => Sys2Proof.Machine.execSendcmd opcode p s
  | .swap6 a => Sys2Proof.Machine.execSwap6 a s
  | .ms2tS ms => Sys2Proof.Machine.execMs2tS ms s
  | .ms2tC ms => Sys2Proof.Machine.execMs2tC ms s
  | .loadfw => Sys2Proof.Machine.execLoadfw s
  | .reservedE => Sys2Proof.Machine.execReservedE s
  | .reservedF => Sys2Proof.Machine.execReservedF s
  | .frameCmd opcode p => Sys2Proof.Machine.execFrameCmd opcode p s
  | .frameEvtStatus echoLo echoHi => Sys2Proof.Machine.execFrameEvtStatus echoLo echoHi s
  | .frameEvtComplete count echoLo echoHi => Sys2Proof.Machine.execFrameEvtComplete count echoLo echoHi s
  | .frameFwrec opLo opHi p => Sys2Proof.Machine.execFrameFwrec opLo opHi p s
  | .frameAcl handle totalLen l2capLen gatt => Sys2Proof.Machine.execFrameAcl handle totalLen l2capLen gatt s

end Sys2Proof.Machine
end

