-- ==== Sys2Proof/Machine/Engine.lean ====
section
/-! DEFINITION. One step of each agent (R20): the SPE by its phase (R24), the host's next request, the link's move, and
reset. Sys2Proof/Machine/Step.lean only picks the agent. -/

namespace Sys2Proof.Machine

/-! ## The SPE -/

/-- The record at the cursor, read as `3 + LEN` bytes of the image (R48, R131). -/
def fetchRecord (p : Params) (c : Nat) : Option (List Byte) :=
  match p.memRead c Config.recHeader with
  | none => none
  | some _ => p.memRead c (Config.recHeader + (p.img.read (c + 2)).toNat)

/-- `FW_NEXT` (R130, R131): the record at the cursor is decoded and executed while one remains, else the settle delay.
-/
def nextRecord (s : State) : Result :=
  if s.cursor.toNat < s.par.fwSize then
    match fetchRecord s.par s.cursor.toNat with
    | none => .fault .imageReadPastEnd
    | some bs =>
      match decode .image bs with
      | .ok (i, _) => exec i s
      | .error _ => .fault .imageReadPastEnd
  else .next (goto .fwSettle s)

/-- `T_FLUSH` (R76): discard the oldest byte while there is one, else end. -/
def flushByte (s : State) : Result :=
  match s.rxq with
  | [] => .next (respond .done (goto .idle s))
  | _ :: q => .next { s with rxq := q }

/-- One step of the SPE (R24), or a hold; one byte with its check is a step (DESIGN CHOICE, safe, log entry 18), and so
is the settle delay (DEDUCED, safe, log entry 15). -/
def speStep (s : State) : Result :=
  match s.phase with
  | .idle => .next s
  | .txType => txByte Config.pktCommand (goto .txOpLo) s
  | .txOpLo => txByte s.opLo (goto .txOpHi) s
  | .txOpHi => txByte s.opHi (goto .txLen) s
  | .txLen => txByte s.len afterLength s
  | .txPayload => sendPayloadByte s
  | .rxType | .rxCode | .sLen | .sStatus | .sCount | .sEchoLo | .sEchoHi | .cLen | .cCount | .cEchoLo | .cEchoHi
  | .cStatus => rxWait (onEventByte s.phase) s
  | .tWaitrd => rxWait (fun b s => respond (.byte b) (goto .idle s)) s
  | .tWrbyte => txByte s.portByte (fun s => respond .done (goto .idle s)) s
  | .tFlush => flushByte s
  | .fwNext => nextRecord s
  | .fwSettle => .next (endLoad s)

/-! ## The host -/

/-- The instruction an item of the host's holds: a request record, or a frame for the chip. Bytes of the item behind the
record or the frame mean nothing and are dropped with it (DESIGN CHOICE, unsafe, log entry 1). -/
def decodeItem : HostItem → Decoded
  | .request bs => decode .request bs
  | .frame bs => decode .txWire bs

/-- The host makes its next request, if it has one (R20); what the item holds behind it is dropped (DESIGN CHOICE,
unsafe, log entry 1). -/
def hostTurn (s : State) : Result :=
  match s.hostq with
  | [] => .next s
  | item :: q =>
    match decodeItem item with
    | .ok (i, _) => exec i { s with hostq := q }
    | .error e => .refused (.undecodable e)

/-- Where no agent is scheduled: a dutiful host requests only while the SPE is idle (R199), and the SPE steps while it
is not; the link is silent (DESIGN CHOICE, unsafe, log entry 4). -/
def cooperate (s : State) : Result := if s.busy then speStep s else hostTurn s

/-! ## The link and reset -/

/-- A move of the link (R199), taken from the head of the schedule; `rest` is the schedule after it. A delivery that
finds `RXQ` full is not a move the link has: it stays, and the others move. Endless traffic leaves itself in the
schedule, its bytes turned by one, behind a turn of the SPE while it is busy, else of the host (DESIGN CHOICE, safe, log
entry 4). -/
def linkTurn (m : LinkMove) (rest : List Turn) (s : State) : Result :=
  match m with
  | .deliver b =>
    if s.rxq.length < s.par.rxqDepth then .next { s with rxq := s.rxq ++ [b], sched := rest } else cooperate s
  | .traffic [] => .next { s with sched := rest }
  | .traffic (b :: bs) =>
    if s.rxq.length < s.par.rxqDepth then
      .next { s with
        rxq := s.rxq ++ [b]
        sched := (if s.busy then .spe else .host) :: .link (.traffic (bs ++ [b])) :: rest }
    else cooperate s
  | .txFull v => .next { s with txFull := v, sched := rest }
  | .frame bs =>
    match decode .rxWire bs with
    | .ok (i, []) => exec i { s with sched := rest }
    | _ => .next (deliverBytes bs { s with sched := rest })

/-- `rst` (R190, R191): the launch state of R34, whatever was in progress; the two boundaries and the parameters are not
the SPE's to reset (DESIGN CHOICE, unsafe, log entry 11). -/
def assertReset (s : State) : State :=
  { State.resetWith s.par with
    rxq := (Config.staleRx s.fresh).take s.par.rxqDepth
    txFull := s.txFull, resps := s.resps, hostq := s.hostq, sched := s.sched, fresh := s.fresh + 1 }

end Sys2Proof.Machine
end

