-- ==== Sys2Proof/Machine/Step.lean ====
section
/-! DEFINITION. One step of the machine: the next agent moves (R20). And where a table word stands to be run next. -/

namespace Sys2Proof.Machine

/-- One step. -/
def step (s : State) : Host.Outcome State Fault Refusal :=
  match s.sched with
  | [] => cooperate s
  | .spe :: rest => speStep { s with sched := rest }
  | .host :: rest => hostTurn { s with sched := rest }
  | .link m :: rest => linkTurn m rest s
  | .rst :: rest => .next (assertReset { s with sched := rest })

/-- A record of the image placed at the cursor of a `LOADFW` that is between commands, the SPE's turn next. -/
def State.withRecord (s : State) (bs : List Byte) : State :=
  { s with
    phase := .fwNext, inFw := true, fwBegin := false, sched := .spe :: s.sched
    par := { s.par with
      fwSize := max s.par.fwSize (s.cursor.toNat + bs.length)
      img := s.par.img.writeBytes s.cursor.toNat bs } }

/-- The state in which the very next step runs the instruction of a table word: a request is the host's next item and
the host's turn comes next; an event frame is the link's next move; a record stands at the cursor (DESIGN CHOICE, safe,
log entry 12). -/
def State.withFetchWord (s : State) (nbits w : Nat) : State :=
  match tableSpace nbits with
  | .image => s.withRecord ((tableBytes nbits w).take Config.recHeader)
  | .rxWire => { s with sched := .link (.frame (tableBytes nbits w)) :: s.sched }
  | .request | .txWire =>
    { s with hostq := .request (tableBytes nbits w) :: s.hostq, sched := .host :: s.sched }

end Sys2Proof.Machine
end

