-- ==== Sys2Proof/Machine/Clients.lean ====
section
/-! DEFINITION. The client sequences of spec/46_clients.md, the pseudo-instructions of this hardware (R69): each is a
fixed list of operations the host requests in order. They are host behaviour and add nothing to the SPE. What the spec
does not give of their bytes is an open parameter of Sys2Proof/Config.lean (R141; DESIGN CHOICE, log entry 16, safe but
where a docstring says otherwise). A client may not use a conversion that overflowed (R142), so a sequence that would
need one is `none`. -/

namespace Sys2Proof.Machine.Client

/-! ## Commands and their payloads (R140, R141) -/

/-- `Cmd(ogf, ocf, payload)` (R140). -/
def cmd (ogf : BitVec Config.ogfBits) (ocf : BitVec Config.ocfBits) (payload : List Byte) : List Instr :=
  [.mkop ogf ocf, .sendcmd (composeOpcode ogf ocf) payload]

/-- `Cmd` with the open opcode of a client function (R141). -/
def openCmd (c : Config.ClientCmd) (payload : List Byte) : List Instr :=
  cmd (Config.clientOgf c) (Config.clientOcf c) payload

/-- A field of `w` bytes, given byte by byte. -/
def bytesOf (w : Nat) (f : Nat → Byte) : List Byte := (List.range w).map f

/-- The fields of open width of a command (R143 to R151). A gap stands where the rule does not say that the bytes it
names are all: around the address of `setBdAddr`, before the advertising data, anywhere in `createConnection`. -/
def openFields : Config.ClientCmd → List Config.ClientField
  | .setBdAddr => [.gap 0, .gap 1]
  | .setLeEventMask => [.eventMask]
  | .setScanParameters => [.type, .ownAddrType, .filterPolicy]
  | .setScanEnable => [.enabled, .filterDuplicates]
  | .setAdvertiseEnable => [.enabled]
  | .setAdvertiseParameters => [.type, .ownAddrType, .filterPolicy, .channelMap, .reserved]
  | .setAdvertiseData => [.gap 0]
  | .createConnection =>
    [.ownAddrType, .filterPolicy, .gap 0, .gap 1, .gap 2, .gap 3, .gap 4, .gap 5, .gap 6, .gap 7, .gap 8, .gap 9,
      .gap 10, .gap 11]

/-- The bytes of a payload whose number the rules give: addresses, tick counts, advertising data. -/
def givenBytes : Config.ClientCmd → Nat
  | .setBdAddr => Config.bdaddrLen
  | .setScanParameters | .setAdvertiseParameters => 4
  | .setAdvertiseData => Config.advDataLen
  | .createConnection => Config.bdaddrLen + 8
  | .setLeEventMask | .setScanEnable | .setAdvertiseEnable => 0

/-- The width of a field: open, and such that the payload fits a length byte (R61). -/
def fieldWidth (c : Config.ClientCmd) (f : Config.ClientField) : Nat :=
  if ((openFields c).map (Config.clientFieldWidth c)).sum + givenBytes c ≤ Config.payloadMax then
    Config.clientFieldWidth c f
  else 0

/-- A field that carries a value. -/
def field (c : Config.ClientCmd) (f : Config.ClientField) (value : Nat) : List Byte :=
  bytesOf (fieldWidth c f) (Config.clientFieldByte c f value)

/-- The bytes before the piece at a place, where the rule leaves room for any. The spec does not say what they carry
(the `...` of R151; R143, R150): they are constants of the command and the place, the same for every call and whatever
its arguments (DESIGN CHOICE, unsafe, log entry 16). -/
def gap (c : Config.ClientCmd) (place : Nat) : List Byte :=
  if .gap place ∈ openFields c then field c (.gap place) 0 else []

/-- `LAYOUT` (R141): every piece once, whole, in an open order. -/
def payload {n : Nat} (c : Config.ClientCmd) (pieces : Vector (List Byte) n) : List Byte :=
  (List.ofFn fun i : Fin n => gap c i ++ pieces[Config.clientOrder c n i]).flatten ++ gap c n

/-! ## Conversions (R142) -/

/-- `ms` converts without overflow (R142). -/
def converts (mul : Nat) (ms : Word16) : Bool := !tickOverflow mul ms

/-- The lo byte of a conversion (R124), as a piece of a payload. -/
def tickLo (mul : Nat) (ms : Word16) : List Byte := [lowByte (tickCount mul ms)]

/-- The hi byte of a conversion (R124), as a piece of a payload. -/
def tickHi (mul : Nat) (ms : Word16) : List Byte := [highByte (tickCount mul ms)]

/-! ## The encoder's functions (R143 to R151) -/

/-- `setBdAddr(addr)` (R143): the address is reversed on its way into the wire field (R115, R142) and stands there
together; what stands around it is open (DEDUCED, unsafe, log entry 16). -/
def setBdAddr (addr : Vector Byte Config.bdaddrLen) : List Instr :=
  .swap6 addr :: openCmd .setBdAddr (payload .setBdAddr #v[(swapAddress addr).toList])

/-- `setBaudRate(rate)` (R144). -/
def setBaudRate (rate : Nat) : List Instr :=
  cmd Config.ogfVendor Config.ocfSetBaud
    (if rate = 115200 then [0x00, 0x00, 0x00, 0xC2, 0x01, 0x00]
      else bytesOf (Config.baudRateLen rate).val (Config.baudRateByte rate))

/-- `setLeEventMask(mask)` (R145). -/
def setLeEventMask (mask : Nat) : List Instr :=
  openCmd .setLeEventMask (payload .setLeEventMask #v[field .setLeEventMask .eventMask mask])

/-- Two scan/advertise conversions, then a command whose payload holds the type, both counts as lo and hi bytes, the two
open arguments, and what else the command carries (R146, R149). -/
def intervalCmd {n : Nat} (c : Config.ClientCmd) (type : Nat) (ms1 ms2 : Word16) (ownAddrType filterPolicy : Nat)
    (more : Vector (List Byte) n) : Option (List Instr) :=
  if converts Config.tickSMul ms1 && converts Config.tickSMul ms2 then
    some ([.ms2tS ms1, .ms2tS ms2] ++ openCmd c (payload c
      (#v[field c .type type, tickLo Config.tickSMul ms1, tickHi Config.tickSMul ms1, tickLo Config.tickSMul ms2,
        tickHi Config.tickSMul ms2, field c .ownAddrType ownAddrType, field c .filterPolicy filterPolicy] ++ more)))
  else none

/-- `setScanParameters` (R146). -/
def setScanParameters (type : Nat) (interval window : Word16) (ownAddrType filterPolicy : Nat) : Option (List Instr) :=
  intervalCmd .setScanParameters type interval window ownAddrType filterPolicy #v[]

/-- `setScanEnable` (R147). -/
def setScanEnable (enabled : Bool) (filterDuplicates : Nat) : List Instr :=
  openCmd .setScanEnable (payload .setScanEnable
    #v[field .setScanEnable .enabled enabled.toNat, field .setScanEnable .filterDuplicates filterDuplicates])

/-- `setAdvertiseEnable` (R148). -/
def setAdvertiseEnable (enabled : Bool) : List Instr :=
  openCmd .setAdvertiseEnable (payload .setAdvertiseEnable #v[field .setAdvertiseEnable .enabled enabled.toNat])

/-- `setAdvertiseParameters` (R149), with the constants `ADV_CHANNEL_MAP` and `ADV_RESERVED`. The rule leaves open how
many reserved fields there are and where they stand: they are one contiguous piece here, so that two of them with
another field between cannot occur (DESIGN CHOICE, unsafe, log entry 16). -/
def setAdvertiseParameters (type : Nat) (minMs maxMs : Word16) (ownAddrType filterPolicy : Nat) : Option (List Instr) :=
  intervalCmd .setAdvertiseParameters type minMs maxMs ownAddrType filterPolicy
    #v[field .setAdvertiseParameters .channelMap Config.advChannelMap,
      field .setAdvertiseParameters .reserved Config.advReserved]

/-- The parts of `ADV_DATA` of open width. -/
def advParts : List Config.AdvPart := [.flags, .serviceHead, .dataHead, .dataUuid, .dataMiddle, .dataUrl]

/-- A part of `ADV_DATA`: open, and such that the parts fit 31 bytes with the two of the service UUID. -/
def advPart (p : Config.AdvPart) : List Byte :=
  bytesOf (if (advParts.map Config.advPartWidth).sum + 2 ≤ Config.advDataLen then Config.advPartWidth p else 0)
    (Config.advPartByte p)

/-- The flags AD, the 16-bit service UUID AD, and the service-data AD with its UUID and URL, in that order (R150). -/
def advBody : List Byte :=
  advPart .flags ++ (advPart .serviceHead ++ Config.advServiceUuid.toList) ++
    (advPart .dataHead ++ advPart .dataUuid ++ advPart .dataMiddle ++ advPart .dataUrl)

/-- `ADV_DATA[0..30]` (R150): the three parts, padded with zero bytes to 31. -/
def advData : List Byte := advBody ++ List.replicate (Config.advDataLen - advBody.length) 0

/-- `setAdvertiseData()` (R150). -/
def setAdvertiseData : List Instr := openCmd .setAdvertiseData (payload .setAdvertiseData #v[advData])

/-- `createConnection` (R151): two scan conversions, two connection conversions, the address reversed, one command with
the six address bytes together. -/
def createConnection (peer : Vector Byte Config.bdaddrLen) (scanInterval scanWindow : Word16)
    (ownAddrType filterPolicy : Nat) (connMin connMax : Word16) : Option (List Instr) :=
  if converts Config.tickSMul scanInterval && converts Config.tickSMul scanWindow && converts Config.tickCMul connMin &&
      converts Config.tickCMul connMax then
    some ([.ms2tS scanInterval, .ms2tS scanWindow, .ms2tC connMin, .ms2tC connMax, .swap6 peer] ++
      openCmd .createConnection (payload .createConnection
        #v[(swapAddress peer).toList, tickLo Config.tickSMul scanInterval, tickHi Config.tickSMul scanInterval,
          tickLo Config.tickSMul scanWindow, tickHi Config.tickSMul scanWindow,
          field .createConnection .ownAddrType ownAddrType, field .createConnection .filterPolicy filterPolicy,
          tickLo Config.tickCMul connMin, tickHi Config.tickCMul connMin, tickLo Config.tickCMul connMax,
          tickHi Config.tickCMul connMax]))
  else none

/-! ## The wrappers (R152) -/

/-- `startActiveScanning()` (R152 (a)); a failed step does not stop the next (R154). -/
def startActiveScanning : Option (List Instr) :=
  (setScanParameters Config.scanTypeActive Config.scanWrapperMs Config.scanWrapperMs
    (Config.wrapperOwnAddrType .startActiveScanning) (Config.wrapperFilterPolicy .startActiveScanning)).map
    (· ++ setScanEnable true (Config.wrapperFilterDuplicates .startActiveScanning))

/-- `startActiveAdvertising()` (R152 (b)). The rule leaves its other calls (advertising data, enable) and their order
open: none of them is made here (DESIGN CHOICE, unsafe, log entry 16). -/
def startActiveAdvertising : Option (List Instr) :=
  setAdvertiseParameters Config.advTypeNonconnUndirected Config.advWrapperMs Config.advWrapperMs
    (Config.wrapperOwnAddrType .startActiveAdvertising) (Config.wrapperFilterPolicy .startActiveAdvertising)

/-- `stopScanning()` (R152 (c)). -/
def stopScanning : List Instr := setScanEnable false (Config.wrapperFilterDuplicates .stopScanning)

/-- `stopAdvertising()` (R152 (d)). -/
def stopAdvertising : List Instr := setAdvertiseEnable false

/-! ## The ACL helper (R153) -/

/-- The handle field of the ACL packet, at the frame's open width (R66, R141). -/
def aclHandle (connectionHandle : Nat) : List Byte :=
  bytesOf Config.aclHandleBytes (Config.aclHandleByte connectionHandle)

/-- The total length field. -/
def aclTotalLen : List Byte := bytesOf Config.aclTotalLenBytes Config.aclTotalLenByte

/-- The L2CAP payload length field. -/
def aclL2capLen : List Byte := bytesOf Config.aclL2capLenBytes Config.aclL2capLenByte

/-- `sendSubscribe(connectionHandle)` (R153): `WRBYTE` operations only, `WRBYTE 0x02` first, then the fields in the
quoted order. -/
def sendSubscribe (connectionHandle : Nat) : List Instr :=
  (Config.pktAcl ::
    (aclHandle connectionHandle ++ (aclTotalLen ++ (aclL2capLen ++ (aclCidField ++ Config.gattWrite.toList))))).map
    .wrbyte

/-! ## As requests -/

/-- An instruction as an item of the host's (R61, R66). Events and records are not the host's to send. -/
def item (i : Instr) : Option HostItem :=
  match i.space with
  | .request => some (.request (encode i))
  | .txWire => some (.frame (encode i))
  | .rxWire | .image => none

/-- The host's requests for a sequence, in order (R51, R140). -/
def items (l : List Instr) : List HostItem := l.filterMap item

end Sys2Proof.Machine.Client
end

