-- ==== Sys2Proof/Safety.lean ====
section
/-! DEFINITION. What claims are stated in: runs of the machine, the phases by kind, the launch premises of R200, and the
invariant that rules out the states no run from reset reaches. -/

namespace Sys2Proof.Machine

/-! ## Runs -/

/-- `k` steps, stopping at the first fault or refusal. -/
def run : Nat → State → Result
  | 0, s => .next s
  | k + 1, s =>
    match step s with
    | .next t => run k t
    | .fault f => .fault f
    | .refused r => .refused r

/-! ## Phases by kind (R24) -/

/-- The four phases that send the frame's header (R92). -/
def Phase.sendsHeader : Phase → Bool
  | .txType | .txOpLo | .txOpHi | .txLen => true
  | _ => false

/-- The phases that receive a byte of the answer (R93 to R104). -/
def Phase.receivesEvent : Phase → Bool
  | .rxType | .rxCode | .sLen | .sStatus | .sCount | .sEchoLo | .sEchoHi | .cLen | .cCount | .cEchoLo | .cEchoHi
  | .cStatus => true
  | _ => false

/-- The phases between the issue of a command and its end (R24). -/
def Phase.inCommand (p : Phase) : Bool := p.sendsHeader || decide (p = .txPayload) || p.receivesEvent

/-- The phases outside every command and every `LOADFW`. -/
def Phase.outsideLoad : Phase → Bool
  | .idle | .tWaitrd | .tWrbyte | .tFlush => true
  | _ => false

/-- The two phases of `LOADFW` that belong to no command. -/
def Phase.betweenCommands : Phase → Bool
  | .fwNext | .fwSettle => true
  | _ => false

/-! ## Waiting (R193) -/

/-- The SPE waits for the link: it is to receive and nothing has come, or it is to send and `tx_full = 1`. -/
def State.waits (s : State) : Prop :=
  ((s.phase.receivesEvent = true ∨ s.phase = .tWaitrd) ∧ s.rxq = []) ∨
    ((s.phase.sendsHeader = true ∨ s.phase = .tWrbyte ∨ (s.phase = .txPayload ∧ s.idx.toNat < 255)) ∧ s.txFull = true)

/-! ## Launch premises (R200) -/

/-- `ResetState`: the values R34 gives; the registers it leaves unspecified may hold anything, and what is not the SPE's
(requests, turns, responses given, `tx_full`) is not part of the premise. -/
structure State.isLaunch (s : State) : Prop where
  params : s.par.wf
  phase : s.phase = .idle
  inFw : s.inFw = false
  fwBegin : s.fwBegin = false
  rxq : s.rxq.length ≤ s.par.rxqDepth
  txs : s.txs = []
  logs : s.logs = []

/-- `LinkSetUp`: the flags mean what R27 says. The set-up is the excluded collaborators' (R6, R192 step 1): the model
takes it as done in every state (DESIGN CHOICE, unsafe, log entry 19), so every claim about it has this premise. -/
def State.linkSetUp (s : State) : Prop := s.rxReady = true ↔ s.rxq ≠ []

/-- `Flushed`: the receive queue is empty, as it is when a `FLUSH` has ended and the link has delivered nothing since.
-/
def State.flushed (s : State) : Prop := s.rxq = []

/-- `WF(IMG)` (R133), with `FW_SIZE` in its range. Of the parameters of `State.reset` it holds because the model places
no image there (log entry 9), of a launch state it says nothing. -/
def State.imageInPlace (s : State) : Prop := s.par.wf ∧ s.par.imageWellFormed = true

/-- The link's next move delivers a byte. -/
def State.delivers (s : State) : Prop :=
  ∃ m ts, s.sched = .link m :: ts ∧ ((∃ b, m = .deliver b) ∨ ∃ bs, bs ≠ [] ∧ (m = .frame bs ∨ m = .traffic bs))

/-- `Quiet`: along the run the link delivers a byte only in answer to a command frame, which the model takes to be while
a command whose frame has been sent whole awaits its answer (DESIGN CHOICE, safe, log entry 4). -/
def State.quiet (s : State) : Prop := ∀ k t, run k s = .next t → t.delivers → t.phase.receivesEvent = true

/-- The link stays as it is, and sends are not held: nothing is scheduled and `tx_full = 0`. More than `Quiet`: no byte
is delivered at all. -/
def State.linkQuiet (s : State) : Prop := s.sched = [] ∧ s.txFull = false

/-! ## The invariant -/

/-- The record of the image whose command is in progress stands at the cursor, and records tile the rest (R131, R133).
-/
def State.recordInFlight (s : State) : Prop :=
  s.opLo = s.par.img.read s.cursor.toNat ∧ s.opHi = s.par.img.read (s.cursor.toNat + 1) ∧
    s.len = s.par.img.read (s.cursor.toNat + 2) ∧
    ∃ fuel, s.par.tiledFrom fuel (s.cursor.toNat + Config.recHeader + s.len.toNat) = true

/-- What every step keeps. -/
structure Inv (s : State) : Prop where
  /-- The parameters are in their ranges (R8) and the image is in canonical form. -/
  params : s.par.wf
  /-- `RXQ` holds at most `RXQ_DEPTH` bytes (R31). -/
  rxqBound : s.rxq.length ≤ s.par.rxqDepth
  /-- `RCODE` is 0 to 12 (R30). -/
  codeRange : s.rcode.toNat ≤ Config.nFail
  /-- `RINFO` is nonzero only for `DeviceReportedError` (R30). -/
  infoRange : s.rinfo ≠ 0 → s.rcode = ResultCode.deviceReportedError.toBits
  /-- The carried value of a load's last command is nonzero only for `DeviceReportedError` (R30, R130). -/
  fwInfoRange : s.fwInfo ≠ 0 → s.fwCode = .deviceReportedError
  /-- A load goes on to its next record only after a command that ended with `Ok` (R130, R132). -/
  nextOk : s.phase = .fwNext → s.fwCode = .ok
  /-- `IDX` is 0 to `LEN` (R23). -/
  idxRange : s.idx.toNat ≤ s.len.toNat
  /-- No payload byte is sent before the header (R92). -/
  idxHeader : s.phase.sendsHeader = true → s.idx = 0
  /-- A payload byte remains to be sent (R24). -/
  idxPayload : s.phase = .txPayload → s.idx.toNat < s.len.toNat
  /-- `INFW = 0` outside a load (R24). -/
  outsideLoad : s.phase.outsideLoad = true → s.inFw = false
  /-- `INFW = 1` between the commands of a load (R24). -/
  betweenCommands : s.phase.betweenCommands = true → s.inFw = true ∧ s.fwBegin = false
  /-- The begin-load command is a command of a load. -/
  beginInLoad : s.fwBegin = true → s.inFw = true
  /-- A load runs over a well-formed image (R133). -/
  loadImage : s.inFw = true → s.par.imageWellFormed = true
  /-- Between commands the cursor is at a record boundary (R133). -/
  cursorTiled : s.phase = .fwNext → ∃ fuel, s.par.tiledFrom fuel s.cursor.toNat = true
  /-- The command of a record is that of the record at the cursor (R131). -/
  inFlight : s.inFw = true → s.fwBegin = false → s.phase.inCommand = true → s.recordInFlight

end Sys2Proof.Machine
end

