-- ==== Sys2Proof/Certificates/Slice0/Obligations.lean ====
section
/-! DEFINITION. The statements about the model. Each docstring names the rule of spec/ it formalises, and the log entry
where it rests on a choice of the model. -/

open Sys2Proof Sys2Proof.Machine

namespace Sys2Proof.Claims

/-! ## What the rules call a command's end -/

/-- `return Ok` inside and outside a load (R105, R131), from a state whose last byte has been removed. Inside a load the
result is kept until the load ends (R30, R130; log entry 13). -/
def succeeded (s : State) : State :=
  if s.inFw then
    { s with
      fwCode := .ok, fwInfo := 0, phase := .fwNext, fwBegin := false
      cursor := if s.fwBegin then 0 else s.cursor + 3 + s.len.setWidth 32 }
  else { s with rcode := 0, rinfo := 0, phase := .idle, resps := s.resps ++ [.result 0 0] }

/-- `raise Fail(code, info)` inside and outside a load (R166, R132), from a state whose last byte has been removed.
Inside a load the result is kept until the load ends (R30, R130; log entry 13). -/
def failed (code : ResultCode) (info : Byte) (s : State) : State :=
  if s.inFw then
    { s with
      fwCode := code, fwInfo := info, phase := .fwSettle, fwBegin := false
      logs := s.logs ++ [.fwAbort code.toBits] }
  else { s with rcode := code.toBits, rinfo := info, phase := .idle, resps := s.resps ++ [.result code.toBits info] }

/-! ## The validation as one function of the seven bytes (R90, R164) -/

/-- The first check, in reading order, that the bytes of an answer violate (R164), and the carried value. -/
def verdict (lo hi b0 b1 b2 b3 b4 b5 b6 : Byte) : ResultCode × Byte :=
  if b0 ≠ 0x04 then (.unexpectedPacketType, 0)
  else if b1 = 0x0f then
    if b2 ≠ 4 then (.badParamLength, 0)
    else if b3 ≠ 0 then (.deviceReportedError, b3)
    else if b4 ≠ 0 then (.badPacketCount, 0)
    else if b5 ≠ lo then (.opcodeEchoMismatchLo, 0)
    else if b6 ≠ hi then (.opcodeEchoMismatchHi, 0)
    else (.ok, 0)
  else if b1 = 0x0e then
    if b2 ≠ 4 then (.badParamLength2, 0)
    else if b3 = 0 then (.zeroPacketCount, 0)
    else if b4 ≠ lo then (.opcodeEchoMismatchLo2, 0)
    else if b5 ≠ hi then (.opcodeEchoMismatchHi2, 0)
    else if b6 ≠ 0 then (.nonZeroStatus, 0)
    else (.ok, 0)
  else (.unknownEventCode, 0)

/-- The bytes removed from `RXQ` per outcome (R106). -/
def bytesRemoved : ResultCode → Nat
  | .ok => 7
  | .unexpectedPacketType => 1
  | .unknownEventCode => 2
  | .badParamLength => 3
  | .deviceReportedError => 4
  | .badPacketCount => 5
  | .opcodeEchoMismatchLo => 6
  | .opcodeEchoMismatchHi => 7
  | .badParamLength2 => 3
  | .zeroPacketCount => 4
  | .opcodeEchoMismatchLo2 => 5
  | .opcodeEchoMismatchHi2 => 6
  | .nonZeroStatus => 7

/-- The bytes a command's answer is accepted with (R110). -/
def accepted (lo hi : Byte) (bs : List Byte) : Prop :=
  bs = [0x04, 0x0f, 0x04, 0x00, 0x00, lo, hi] ∨ ∃ c : Byte, c ≠ 0 ∧ bs = [0x04, 0x0e, 0x04, c, lo, hi, 0x00]

/-- The end of a command with a verdict (R33, R96, R105, R166). -/
def ended (v : ResultCode × Byte) (s : State) : State :=
  if v.1 = .ok then succeeded s
  else if v.1 = .deviceReportedError then failed v.1 v.2 { s with logs := s.logs ++ [.deviceStatus v.2] }
  else failed v.1 0 s

/-- The wire bytes of a command frame (R63). -/
def frameBytes (lo hi : Byte) (p : List Byte) : List Byte := [0x01, lo, hi, BitVec.ofNat 8 p.length] ++ p

/-! ## Firmware images as records (R65, R133) -/

/-- One firmware record. -/
structure Rec where
  lo : Byte
  hi : Byte
  payload : List Byte

/-- The bytes of a record in the image (R65). -/
def Rec.bytes (r : Rec) : List Byte := [r.lo, r.hi, BitVec.ofNat 8 r.payload.length] ++ r.payload

/-- The image of these parameters is these records back to back (R47, R133). -/
def holdsRecords (p : Params) (rs : List Rec) : Prop :=
  (∀ r ∈ rs, r.payload.length ≤ 255) ∧ p.fwSize = (rs.flatMap Rec.bytes).length ∧
    ∀ i, i < p.fwSize → p.img.read i = (rs.flatMap Rec.bytes).getD i 0

/-- What the records' commands put on the link (R63, R131). -/
def recordFrames (rs : List Rec) : List Byte := rs.flatMap fun r => frameBytes r.lo r.hi r.payload

/-- Every answer is accepted for its record, in order (R110). -/
def allAccepted : List Rec → List (List Byte) → Prop
  | [], as => as = []
  | r :: rs, a :: as => accepted r.lo r.hi a ∧ allAccepted rs as
  | _ :: _, [] => False

end Sys2Proof.Claims

open Sys2Proof.Claims

/-! ## Encoding -/

/-- R63 to R66, R71, R109 and the packing of log entry 1: no bit of any operand is lost between encoder and decoder, in
every space, whatever follows. -/
def Obligations.DecodeOfEncodeIsTheInstruction : Prop :=
  ∀ (i : Instr) (rest : List Byte), i.wellFormed = true → decode i.space (encode i ++ rest) = .ok (i, rest)

/-- Words written out from R60, R61 (packing: log entry 1), R63, R64, R65. -/
def Obligations.WrittenOutWordsDecode : Prop :=
  decodeTableWord 8 0x0 = some .rxrdy ∧ decodeTableWord 8 0xD = some .loadfw ∧
    decode .request [0x05, 0x3F, 0x18, 0x00] = .ok (.mkop 0x3F 0x018, []) ∧
    decode .request [0x09, 0x34, 0x12, 0x02, 0xAA, 0xBB, 0x00] = .ok (.sendcmd 0x1234 [0xAA, 0xBB], [0x00]) ∧
    decode .txWire [0x01, 0x34, 0x12, 0x02, 0x01, 0x02] = .ok (.frameCmd 0x1234 [0x01, 0x02], []) ∧
    decode .rxWire [0x04, 0x0e, 0x04, 0x01, 0x34, 0x12, 0x00] = .ok (.frameEvtComplete 0x01 0x34 0x12, []) ∧
    decode .rxWire [0x04, 0x0f, 0x04, 0x00, 0x00, 0x34, 0x12] = .ok (.frameEvtStatus 0x34 0x12, []) ∧
    decode .image [0x4c, 0xfc, 0x01, 0x07, 0x99] = .ok (.frameFwrec 0x4c 0xfc [0x07], [0x99]) ∧
    decode .request [0x10] = .error .selectorPadding

/-- R63, R65: a command frame and a firmware record are read at the offsets the tables give, whatever follows, and a
record is the frame without its packet-type byte. -/
def Obligations.FramesAreReadAtTheirOffsets : Prop :=
  ∀ (opcode : Word16) (l h : Byte) (p rest : List Byte), p.length ≤ 255 →
    decode .txWire
        ([0x01, opcode.extractLsb' 0 8, opcode.extractLsb' 8 8, BitVec.ofNat 8 p.length] ++ p ++ rest) =
      .ok (.frameCmd opcode p, rest) ∧
    decode .image ([l, h, BitVec.ofNat 8 p.length] ++ p ++ rest) = .ok (.frameFwrec l h p, rest) ∧
    (encode (.frameCmd opcode p)).length = 4 + p.length ∧ (encode (.frameFwrec l h p)).length = 3 + p.length ∧
    encode (.frameCmd (joinBytes l h) p) = 0x01 :: encode (.frameFwrec l h p) ∧
    ∀ (ogf : BitVec 6) (ocf : BitVec 10),
      (encode (.frameCmd (composeOpcode ogf ocf) p))[1]? = some (ocf.extractLsb' 0 8) ∧
        (encode (.frameCmd (composeOpcode ogf ocf) p))[2]? = some (ogf ++ ocf.extractLsb' 8 2)

/-! ## Reset and the invariant -/

/-- What R34 and R190 state of the launch state, for every choice of the parameters. The registers R34 leaves
unspecified are left out here; the values the model names for them are log entry 10. -/
def Obligations.LaunchIsIdleWithEmptyStreams : Prop :=
  ∀ p : Params,
    (State.resetWith p).phase = .idle ∧ (State.resetWith p).busy = false ∧ (State.resetWith p).inFw = false ∧
      (State.resetWith p).txs = [] ∧ (State.resetWith p).logs = [] ∧
      (State.resetWith p).rxq.length ≤ p.rxqDepth ∧ (State.resetWith p).par = p

/-- The invariant holds at launch, for all parameters in range, and at `State.reset`. Of the registers R34 leaves
unspecified it holds there by the model's choice of zero (log entry 10: `RCODE` at most 12, `RINFO` 0, `IDX` at most
`LEN`), of the latches of log entry 13 by their values at launch. -/
def Obligations.InvariantHoldsAtLaunch : Prop := (∀ p : Params, p.wf → Inv (State.resetWith p)) ∧ Inv State.reset

/-- Every step of every agent keeps the invariant, from every state that meets it. -/
def Obligations.EveryStepKeepsTheInvariant : Prop := ∀ s t : State, Inv s → step s = .next t → Inv t

/-- No state that meets the invariant reads a byte the spec says does not exist (R26, R45). -/
def Obligations.NoFaultUnderTheInvariant : Prop := ∀ (s : State) (f : Fault), Inv s → step s ≠ .fault f

/-! ## The step -/

/-- A host's turn runs the instruction its next item decodes to (R11, R20); the same when nothing is scheduled and the
SPE is idle (log entry 4). The item is taken from the host's list, and the turn from the schedule. That a frame for the
chip is an item of the host's is log entry 2; that bytes left over in an item (`rest`) are dropped is log entry 1. -/
def Obligations.StepRunsTheDecodedRequest : Prop :=
  ∀ (s : State) (bs rest : List Byte) (i : Instr) (q : List HostItem),
    ((decode .request bs = .ok (i, rest) ∧ s.hostq = .request bs :: q) ∨
      (decode .txWire bs = .ok (i, rest) ∧ s.hostq = .frame bs :: q)) →
    (∀ ts, s.sched = .host :: ts → step s = exec i { s with hostq := q, sched := ts }) ∧
    (s.sched = [] → s.phase = .idle → step s = exec i { s with hostq := q })

/-- Between the commands of a load, the step of the SPE runs the record its decoder reads at the cursor (R131; that a
record is an instruction is log entry 2), on a turn of the SPE's and where nothing is scheduled (log entry 4). -/
def Obligations.StepRunsTheRecordAtTheCursor : Prop :=
  ∀ (s : State) (bs : List Byte) (i : Instr) (rest : List Byte), s.phase = .fwNext →
    s.cursor.toNat < s.par.fwSize →
    s.par.memRead s.cursor.toNat (3 + (s.par.img.read (s.cursor.toNat + 2)).toNat) = some bs →
    decode .image bs = .ok (i, rest) →
    (s.sched = [] → step s = exec i s) ∧ ∀ ts, s.sched = .spe :: ts → step s = exec i { s with sched := ts }

/-- An accepted event frame of the link's runs as that instruction; of any other bytes those that fit are appended to
`RXQ` as they are, and the others wait with the link, in order (R64, R70). R199 gives the link deliveries of single
bytes only: a frame as one move is log entry 2, the bytes that wait are log entry 4. -/
def Obligations.StepDeliversTheLinksFrame : Prop :=
  ∀ (s : State) (bs : List Byte) (ts : List Turn), s.sched = .link (.frame bs) :: ts →
    (∀ i, decode .rxWire bs = .ok (i, []) → step s = exec i { s with sched := ts }) ∧
    ((∀ i, decode .rxWire bs ≠ .ok (i, [])) →
      step s = .next { s with
        rxq := s.rxq ++ bs.take (s.par.rxqDepth - s.rxq.length)
        sched := ((bs.drop (s.par.rxqDepth - s.rxq.length)).map fun b => .link (.deliver b)) ++ ts })

/-- The table word of each request, placed where the step fetches, is run by the very next step (log entry 12). -/
def Obligations.FetchedTableWordRunsNext : Prop :=
  ∀ (s : State) (w : Nat) (i : Instr), decodeTableWord 8 w = some i →
    step (s.withFetchWord 8 w) = exec i s

/-! ## The pure operations (R28, R80 to R84, R115, R121 to R124) -/

/-- R80: the composed opcode is answered in the step that issues the request, its two fields can be read back, and
nothing else changes. -/
def Obligations.MkopAnswersTheComposedOpcode : Prop :=
  ∀ (s : State) (ogf : BitVec 6) (ocf : BitVec 10), s.phase = .idle →
    exec (.mkop ogf ocf) s = .next { s with resps := s.resps ++ [.word (BitVec.ofNat 16 (ogf.toNat * 1024 + ocf.toNat))] } ∧
      composeOpcode ogf ocf = (ogf.setWidth 16 <<< 10) ||| ocf.setWidth 16 ∧
      (composeOpcode ogf ocf).extractLsb' 10 6 = ogf ∧ (composeOpcode ogf ocf).extractLsb' 0 10 = ocf

/-- R81, R82, R83: the low byte, the high byte and the joined word, nothing else changed. -/
def Obligations.ByteUtilitiesAnswer : Prop :=
  ∀ (s : State) (v : Word16) (l h : Byte), s.phase = .idle →
    exec (.lo v) s = .next { s with resps := s.resps ++ [.byte (v.extractLsb' 0 8)] } ∧
      exec (.hi v) s = .next { s with resps := s.resps ++ [.byte (v.extractLsb' 8 8)] } ∧
      exec (.join l h) s = .next { s with resps := s.resps ++ [.word (BitVec.ofNat 16 (h.toNat * 256 + l.toNat))] }

/-- R84 (a), (b), (c). -/
def Obligations.SplitAndJoinAreInverse : Prop :=
  (∀ (ogf : BitVec 6) (ocf : BitVec 10),
      joinBytes (lowByte (composeOpcode ogf ocf)) (highByte (composeOpcode ogf ocf)) = composeOpcode ogf ocf) ∧
    (∀ v : Word16, joinBytes (lowByte v) (highByte v) = v) ∧
    (∀ l h : Byte, lowByte (joinBytes l h) = l ∧ highByte (joinBytes l h) = h) ∧
    ∀ (g g' : BitVec 6) (c c' : BitVec 10), composeOpcode g c = composeOpcode g' c' → g = g' ∧ c = c'

/-- R115, R116: byte `i` of the answer is byte `5 - i` of the operand, and swapping twice gives the operand back. -/
def Obligations.SwapReversesTheAddress : Prop :=
  ∀ (s : State) (a : Vector Byte 6), s.phase = .idle →
    (∃ r : Vector Byte 6, exec (.swap6 a) s = .next { s with resps := s.resps ++ [.address r] } ∧
      ∀ i : Fin 6, r[i] = a[5 - i.val]'(by omega)) ∧
      swapAddress (swapAddress a) = a

/-- R121, R123, R124: the exact truncated quotient where it fits, `OVF` exactly where it does not; there the count is
open (log entry 6), and the two bytes are those of the count in both cases. The operation runs on every operand. -/
def Obligations.ScanTicksAnswer : Prop :=
  ∀ (s : State) (ms : Word16), s.phase = .idle →
    ∃ ticks : Word16,
      exec (.ms2tS ms) s = .next { s with
        resps := s.resps ++ [.ticks ticks (ticks.extractLsb' 0 8) (ticks.extractLsb' 8 8)
          (decide (65536 ≤ ms.toNat * 8 / 5))] } ∧
      (ms.toNat * 8 / 5 < 65536 → ticks.toNat = ms.toNat * 8 / 5)

/-- R122, R124: the exact truncated quotient, `OVF = 0` for every operand. -/
def Obligations.ConnectionTicksAnswer : Prop :=
  ∀ (s : State) (ms : Word16), s.phase = .idle →
    ∃ ticks : Word16, ticks.toNat = ms.toNat * 4 / 5 ∧
      exec (.ms2tC ms) s = .next { s with
        resps := s.resps ++ [.ticks ticks (ticks.extractLsb' 0 8) (ticks.extractLsb' 8 8) false] }

/-- R124: both conversions deliver the count with its two bytes, which join to it; nothing else changes. For an `MS2T.S`
that overflows, where R123 leaves all three unspecified, that the bytes are those of the count is log entry 6. -/
def Obligations.TickBytesJoinToTheCount : Prop :=
  ∀ (s : State) (ms : Word16) (i : Instr), s.phase = .idle → i = .ms2tS ms ∨ i = .ms2tC ms →
    ∃ (ticks : Word16) (l h : Byte) (ovf : Bool),
      exec i s = .next { s with resps := s.resps ++ [.ticks ticks l h ovf] } ∧ l = ticks.extractLsb' 0 8 ∧
        h = ticks.extractLsb' 8 8 ∧ l = lowByte ticks ∧ h = highByte ticks ∧ joinBytes l h = ticks

/-- R125 (a), (c), (d), where the count fits. -/
def Obligations.TickCountsAreMonotoneAndTight : Prop :=
  (∀ ms : Word16, tickOverflow 8 ms = false →
      5 * (tickCount 8 ms).toNat ≤ 8 * ms.toNat ∧ 8 * ms.toNat < 5 * ((tickCount 8 ms).toNat + 1)) ∧
    (∀ ms : Word16, 5 * (tickCount 4 ms).toNat ≤ 4 * ms.toNat ∧ 4 * ms.toNat < 5 * ((tickCount 4 ms).toNat + 1)) ∧
    (∀ m n : Word16, m.toNat ≤ n.toNat → tickOverflow 8 n = false →
      (tickCount 8 m).toNat ≤ (tickCount 8 n).toNat) ∧
    (∀ m n : Word16, m.toNat ≤ n.toNat → (tickCount 4 m).toNat ≤ (tickCount 4 n).toNat) ∧
    (∀ (ms : Word16) (k : Nat), ms.toNat = 5 * k → 8 * k < 65536 →
      (tickCount 8 ms).toNat = 8 * k ∧ (tickCount 4 ms).toNat = 4 * k)

/-! ## Transport (R72 to R76) -/

/-- R74: the answer is `rx_ready`, nothing is removed and nothing waits. -/
def Obligations.RxrdyAnswersReadiness : Prop :=
  ∀ s : State, s.phase = .idle →
    exec .rxrdy s = .next { s with resps := s.resps ++ [.flag (decide (s.rxq ≠ []))] }

/-- R75: the oldest byte is removed and answered; with `RXQ` empty the request is refused. -/
def Obligations.RdbyteTakesTheOldestOrRefuses : Prop :=
  ∀ s : State, s.phase = .idle →
    (∀ b q, s.rxq = b :: q → exec .rdbyte s = .next { s with rxq := q, resps := s.resps ++ [.byte b] }) ∧
      (s.rxq = [] → exec .rdbyte s = .refused .rdbyteNotReady)

/-- R72: the request enters `T_WAITRD`; there the SPE holds while `RXQ` is empty, and takes the oldest byte as soon as
there is one. -/
def Obligations.WaitrdHoldsThenTakesTheOldest : Prop :=
  ∀ s : State, s.phase = .idle →
    exec .waitrd s = .next { s with phase := .tWaitrd } ∧
      (s.rxq = [] → speStep { s with phase := .tWaitrd } = .next { s with phase := .tWaitrd }) ∧
      ∀ b q, s.rxq = b :: q →
        speStep { s with phase := .tWaitrd } = .next { s with rxq := q, resps := s.resps ++ [.byte b] }

/-- R73: the request enters `T_WRBYTE` with its operand kept (log entry 8); there the SPE holds while `tx_full = 1`, and
else appends the byte to `TXS`. -/
def Obligations.WrbyteHoldsThenSends : Prop :=
  ∀ (s : State) (b : Byte), s.phase = .idle →
    exec (.wrbyte b) s = .next { s with phase := .tWrbyte, portByte := b } ∧
      (s.txFull = true → speStep { s with phase := .tWrbyte, portByte := b } =
        .next { s with phase := .tWrbyte, portByte := b }) ∧
      (s.txFull = false → speStep { s with phase := .tWrbyte, portByte := b } =
        .next { s with portByte := b, txs := s.txs ++ [b], resps := s.resps ++ [.done] })

/-- R76: the request enters `T_FLUSH`; with the link silent, one step for each queued byte and one that sees the queue
empty end it, and only the queue and the response have changed. -/
def Obligations.FlushDrainsTheQueue : Prop :=
  ∀ s : State, s.phase = .idle → s.sched = [] →
    exec .flush s = .next { s with phase := .tFlush } ∧
      run (s.rxq.length + 1) { s with phase := .tFlush } =
        .next { s with rxq := [], resps := s.resps ++ [.done] }

/-- R76 (b): a byte that the link delivers while the flush runs is removed too, one that comes after it has ended
stays. R76 (c), R197: under traffic without pause (log entry 4) it never ends. -/
def Obligations.FlushTakesBytesThatArriveInTime : Prop :=
  ∀ (s : State) (b : Byte), s.phase = .tFlush → s.rxq.length < s.par.rxqDepth →
    (s.sched = [.link (.deliver b)] → ∃ t, run (s.rxq.length + 3) s = .next t ∧ t.phase = .idle ∧ t.rxq = []) ∧
      (s.rxq = [] → s.sched = [.spe, .link (.deliver b)] →
        ∃ t, run 2 s = .next t ∧ t.phase = .idle ∧ t.rxq = [b]) ∧
      (s.sched = [.link (.traffic [b])] → ∀ k, ∃ t, run k s = .next t ∧ t.phase = .tFlush)

/-! ## Requests (R28, R68) -/

/-- R68 (a): the reserved selectors name no operation, in every state. The two request bytes that are decoded here are
the model's packing (log entry 1). -/
def Obligations.ReservedSelectorsAreRefused : Prop :=
  ∀ s : State, exec .reservedE s = .refused (.reservedSelector 0xE) ∧
    exec .reservedF s = .refused (.reservedSelector 0xF) ∧
    decode .request [0x0E] = .ok (.reservedE, []) ∧ decode .request [0x0F] = .ok (.reservedF, [])

/-- R68 (b), R52: while an operation is in progress every request is refused, whatever its selector; so one command is
outstanding at a time. That a frame for the chip is an instruction of the host's too, and is refused as a request is, is
log entry 2. -/
def Obligations.EveryRequestIsRefusedWhileBusy : Prop :=
  ∀ (s : State) (i : Instr), s.busy = true → i.space = .request ∨ i.space = .txWire →
    ∃ r : Refusal, exec i s = .refused r ∧ (i ≠ .reservedE → i ≠ .reservedF → r = .busy)

/-! ## SENDCMD (R90 to R110) -/

/-- R91: at issue the operands are latched and nothing else of the SPE changes; `PB` above the payload is open (R26, log
entry 7). The command frame of the opcode table is issued in the same way (log entry 2). -/
def Obligations.SendcmdLatchesItsOperands : Prop :=
  ∀ (s : State) (opcode : Word16) (p : List Byte) (i : Instr), s.phase = .idle → p.length ≤ 255 →
    i = .sendcmd opcode p ∨ i = .frameCmd opcode p →
    ∃ pb : Vector Byte 255, (∀ (j : Nat) (h : j < p.length) (h' : j < 255), pb[j] = p[j]) ∧
      exec i s = .next { s with
        opLo := opcode.extractLsb' 0 8, opHi := opcode.extractLsb' 8 8, len := BitVec.ofNat 8 p.length, idx := 0
        pb := pb, phase := .txType, fresh := s.fresh + 1 }

/-- R92, R73: each send step of the header holds while `tx_full = 1`, else sends exactly its byte and goes on; after the
length byte comes the payload, or the answer where there is none. -/
def Obligations.HeaderStepsSendOneByte : Prop :=
  ∀ s : State, s.phase.sendsHeader = true →
    (s.txFull = true → speStep s = .next s) ∧
      (s.txFull = false →
        (s.phase = .txType → speStep s = .next { s with txs := s.txs ++ [0x01], phase := .txOpLo }) ∧
        (s.phase = .txOpLo → speStep s = .next { s with txs := s.txs ++ [s.opLo], phase := .txOpHi }) ∧
        (s.phase = .txOpHi → speStep s = .next { s with txs := s.txs ++ [s.opHi], phase := .txLen }) ∧
        (s.phase = .txLen → s.len ≠ 0 → speStep s = .next { s with txs := s.txs ++ [s.len], phase := .txPayload }) ∧
        (s.phase = .txLen → s.len = 0 → speStep s = .next { s with txs := s.txs ++ [s.len], phase := .rxType }))

/-- R92, R23, R24: a payload step sends `PB[IDX]` and adds one to `IDX`; the last one goes on to the answer. -/
def Obligations.PayloadStepSendsTheByteAtIdx : Prop :=
  ∀ (s : State) (h : s.idx.toNat < 255), s.phase = .txPayload →
    (s.txFull = true → speStep s = .next s) ∧
      (s.txFull = false → speStep s = .next { s with
        txs := s.txs ++ [s.pb[s.idx.toNat]], idx := s.idx + 1
        phase := if s.idx.toNat + 1 < s.len.toNat then .txPayload else .rxType })

/-- R93, R94: the packet type and the event code, with the hold of R72 while no byte is there. That a failure inside a
load keeps its code until the load ends, and leaves `RCODE` and `RINFO`, is log entry 13. -/
def Obligations.TypeAndCodeChecks : Prop :=
  ∀ s : State,
    (s.phase.receivesEvent = true → s.rxq = [] → speStep s = .next s) ∧
      ∀ (b : Byte) (q : List Byte), s.rxq = b :: q →
        (s.phase = .rxType → b = 0x04 → speStep s = .next { s with rxq := q, phase := .rxCode }) ∧
        (s.phase = .rxType → b ≠ 0x04 → speStep s = .next (failed .unexpectedPacketType 0 { s with rxq := q })) ∧
        (s.phase = .rxCode → b = 0x0f → speStep s = .next { s with rxq := q, phase := .sLen }) ∧
        (s.phase = .rxCode → b = 0x0e → speStep s = .next { s with rxq := q, phase := .cLen }) ∧
        (s.phase = .rxCode → b ≠ 0x0f → b ≠ 0x0e →
          speStep s = .next (failed .unknownEventCode 0 { s with rxq := q }))

/-- R95 to R99: the five checks of the status-style shape. That the end of a command inside a load keeps its result
until the load ends, and leaves `RCODE` and `RINFO`, is log entry 13. -/
def Obligations.StatusShapeChecks : Prop :=
  ∀ (s : State) (b : Byte) (q : List Byte), s.rxq = b :: q →
    (s.phase = .sLen →
      (b = 4 → speStep s = .next { s with rxq := q, phase := .sStatus }) ∧
      (b ≠ 4 → speStep s = .next (failed .badParamLength 0 { s with rxq := q }))) ∧
    (s.phase = .sStatus →
      (b = 0 → speStep s = .next { s with rxq := q, phase := .sCount }) ∧
      (b ≠ 0 → speStep s =
        .next (failed .deviceReportedError b { s with rxq := q, logs := s.logs ++ [.deviceStatus b] }))) ∧
    (s.phase = .sCount →
      (b = 0 → speStep s = .next { s with rxq := q, phase := .sEchoLo }) ∧
      (b ≠ 0 → speStep s = .next (failed .badPacketCount 0 { s with rxq := q }))) ∧
    (s.phase = .sEchoLo →
      (b = s.opLo → speStep s = .next { s with rxq := q, phase := .sEchoHi }) ∧
      (b ≠ s.opLo → speStep s = .next (failed .opcodeEchoMismatchLo 0 { s with rxq := q }))) ∧
    (s.phase = .sEchoHi →
      (b = s.opHi → speStep s = .next (succeeded { s with rxq := q })) ∧
      (b ≠ s.opHi → speStep s = .next (failed .opcodeEchoMismatchHi 0 { s with rxq := q })))

/-- R100 to R104: the five checks of the command-complete shape. The names of the two echo failures are the spec's
decision D5, the absence of a carried value for `NonZeroStatus` its decision D7. The ends of a command inside a load are
log entry 13's. -/
def Obligations.CompleteShapeChecks : Prop :=
  ∀ (s : State) (b : Byte) (q : List Byte), s.rxq = b :: q →
    (s.phase = .cLen →
      (b = 4 → speStep s = .next { s with rxq := q, phase := .cCount }) ∧
      (b ≠ 4 → speStep s = .next (failed .badParamLength2 0 { s with rxq := q }))) ∧
    (s.phase = .cCount →
      (b ≠ 0 → speStep s = .next { s with rxq := q, phase := .cEchoLo }) ∧
      (b = 0 → speStep s = .next (failed .zeroPacketCount 0 { s with rxq := q }))) ∧
    (s.phase = .cEchoLo →
      (b = s.opLo → speStep s = .next { s with rxq := q, phase := .cEchoHi }) ∧
      (b ≠ s.opLo → speStep s = .next (failed .opcodeEchoMismatchLo2 0 { s with rxq := q }))) ∧
    (s.phase = .cEchoHi →
      (b = s.opHi → speStep s = .next { s with rxq := q, phase := .cStatus }) ∧
      (b ≠ s.opHi → speStep s = .next (failed .opcodeEchoMismatchHi2 0 { s with rxq := q }))) ∧
    (s.phase = .cStatus →
      (b = 0 → speStep s = .next (succeeded { s with rxq := q })) ∧
      (b ≠ 0 → speStep s = .next (failed .nonZeroStatus 0 { s with rxq := q })))

/-- R160: the numbers of the results at the host port (the spec's own numbering, D4), all distinct. -/
def Obligations.ResultCodesAreNumbered : Prop :=
  (∀ a b : ResultCode, a.toBits = b.toBits → a = b) ∧
    [ResultCode.ok, .unexpectedPacketType, .badParamLength, .deviceReportedError, .badPacketCount,
        .opcodeEchoMismatchLo, .opcodeEchoMismatchHi, .badParamLength2, .zeroPacketCount, .opcodeEchoMismatchLo2,
        .opcodeEchoMismatchHi2, .nonZeroStatus, .unknownEventCode].map (fun c => c.toBits.toNat) = List.range 13

/-- R161: a check that fails, inside a load or outside, records its code, and for `DeviceReportedError` alone the
offending byte, which it also logs; it records nothing else: every other register, the opcode among them, and `TXS` are
as before. Inside a load the abort of R132 logs the code behind it, and the load's end, the SPE's next step, writes the
two registers (R30, R130): that the failing check does not write them is log entry 13. -/
def Obligations.FailureRecordsItsCodeAndNothingElse : Prop :=
  ∀ (s t : State) (b : Byte) (q : List Byte), s.phase.receivesEvent = true → s.rxq = b :: q →
    speStep s = .next t → (t.phase = .idle ∧ t.rcode ≠ ResultCode.ok.toBits) ∨ t.phase = .fwSettle →
    (t.opLo = s.opLo ∧ t.opHi = s.opHi ∧ t.len = s.len ∧ t.idx = s.idx ∧ t.pb = s.pb ∧ t.cursor = s.cursor ∧
        t.portByte = s.portByte ∧ t.txs = s.txs ∧ t.txFull = s.txFull ∧ t.rxq = q ∧ t.par = s.par) ∧
      ∃ (c : ResultCode) (i : Byte), c ≠ .ok ∧
        ((c = .deviceReportedError ∧ i = b ∧
            t.logs = s.logs ++ [.deviceStatus b] ++ (if s.inFw then [.fwAbort c.toBits] else [])) ∨
          (c ≠ .deviceReportedError ∧ i = 0 ∧ t.logs = s.logs ++ (if s.inFw then [.fwAbort c.toBits] else []))) ∧
        (s.inFw = false → t.rcode = c.toBits ∧ t.rinfo = i ∧ t.fwCode = s.fwCode ∧ t.fwInfo = s.fwInfo) ∧
        (s.inFw = true → t.rcode = s.rcode ∧ t.rinfo = s.rinfo ∧
          ∃ u, speStep t = .next u ∧ u.rcode = c.toBits ∧ u.rinfo = i)

/-- R110, R105: with seven bytes there and no further request of the host's, a run of seven steps from `RX_TYPE` ends
with `Ok` (in `IDLE` with `RCODE = 0`, inside a load in `FW_NEXT` with that result kept: log entry 13) exactly when the
bytes are one of the two families; and then all seven have been removed and nothing else has changed. One step per byte
is log entry 18. -/
def Obligations.AcceptedAnswersAreExactlyTwoFamilies : Prop :=
  ∀ (s : State) (b0 b1 b2 b3 b4 b5 b6 : Byte) (rest : List Byte), s.phase = .rxType → s.sched = [] →
    s.rxq = [b0, b1, b2, b3, b4, b5, b6] ++ rest →
    (s.hostq = [] →
      ((∃ t, run 7 s = .next t ∧
          (if s.inFw then t.phase = .fwNext ∧ t.fwCode = .ok else t.phase = .idle ∧ t.rcode = 0)) ↔
        accepted s.opLo s.opHi [b0, b1, b2, b3, b4, b5, b6])) ∧
    (accepted s.opLo s.opHi [b0, b1, b2, b3, b4, b5, b6] → run 7 s = .next (succeeded { s with rxq := rest }))

/-- R106, R164, R166, R167: from `RX_TYPE`, inside a load or outside, with seven bytes there, the command ends with the
first violated check, after exactly the bytes the table of R106 gives that outcome, one step for each (log entry 18).
Inside a load the end keeps the result until the load ends, and leaves `RCODE` and `RINFO` (log entry 13). -/
def Obligations.AnswerIsJudgedByItsFirstViolation : Prop :=
  ∀ (s : State) (b0 b1 b2 b3 b4 b5 b6 : Byte) (rest : List Byte), s.phase = .rxType → s.sched = [] →
    s.rxq = [b0, b1, b2, b3, b4, b5, b6] ++ rest →
    run (bytesRemoved (verdict s.opLo s.opHi b0 b1 b2 b3 b4 b5 b6).1) s =
      .next (ended (verdict s.opLo s.opHi b0 b1 b2 b3 b4 b5 b6)
        { s with rxq := s.rxq.drop (bytesRemoved (verdict s.opLo s.opHi b0 b1 b2 b3 b4 b5 b6).1) })

/-- R90, R92, R105, R106, R109: with the link quiet and seven bytes waiting, a `SENDCMD` of any payload sends exactly
its frame, then takes exactly the bytes of its outcome, and ends with that outcome; `IDX` has counted the payload. One
step per byte is log entry 18. -/
def Obligations.SendcmdSendsItsFrameAndReportsTheVerdict : Prop :=
  ∀ (s t : State) (opcode : Word16) (p rest : List Byte) (b0 b1 b2 b3 b4 b5 b6 : Byte),
    s.phase = .idle → s.inFw = false → s.linkQuiet → p.length ≤ 255 →
    s.rxq = [b0, b1, b2, b3, b4, b5, b6] ++ rest → exec (.sendcmd opcode p) s = .next t →
    let v := verdict (opcode.extractLsb' 0 8) (opcode.extractLsb' 8 8) b0 b1 b2 b3 b4 b5 b6
    ∃ u, run (4 + p.length + bytesRemoved v.1) t = .next u ∧ u.phase = .idle ∧ u.rcode = v.1.toBits ∧ u.rinfo = v.2 ∧
      u.resps = s.resps ++ [.result v.1.toBits v.2] ∧
      u.txs = s.txs ++ frameBytes (opcode.extractLsb' 0 8) (opcode.extractLsb' 8 8) p ∧
      u.rxq = s.rxq.drop (bytesRemoved v.1) ∧
      u.logs = s.logs ++ (if v.1 = .deviceReportedError then [.deviceStatus v.2] else []) ∧
      u.idx.toNat = p.length ∧ u.cursor = s.cursor ∧ u.hostq = s.hostq ∧ u.par = s.par

/-- R194 (a), R107: a stale byte other than 0x04 at the front is judged as the answer, and everything behind it, the
true answer too, stays queued for the next command. -/
def Obligations.StaleByteIsTakenForTheAnswer : Prop :=
  ∀ (s t : State) (opcode : Word16) (p rest : List Byte) (b : Byte),
    s.phase = .idle → s.inFw = false → s.linkQuiet → p.length ≤ 255 → b ≠ 0x04 → s.rxq = b :: rest →
    exec (.sendcmd opcode p) s = .next t →
    ∃ u, run (4 + p.length + 1) t = .next u ∧ u.phase = .idle ∧ u.rcode = ResultCode.unexpectedPacketType.toBits ∧ u.rinfo = 0 ∧
      u.rxq = rest ∧
      u.txs = s.txs ++ frameBytes (opcode.extractLsb' 0 8) (opcode.extractLsb' 8 8) p

/-- R26, R91: nothing changes the latched request between the issue of a command and its result: no step of any agent,
reset apart, from a phase inside a command. -/
def Obligations.RequestIsImmutableWhileInProgress : Prop :=
  ∀ s t : State, s.phase.inCommand = true → (∀ ts, s.sched ≠ .rst :: ts) → step s = .next t →
    t.opLo = s.opLo ∧ t.opHi = s.opHi ∧ t.len = s.len ∧ t.pb = s.pb

/-- R30, D29: `RCODE` and `RINFO` change only at the end of the command of a `SENDCMD`, where a byte of its answer is
received and the SPE is idle after it, at the end of a `LOADFW`, after its settle delay and not at the ends of its
commands (log entry 13), or at a reset. -/
def Obligations.ResultRegistersChangeOnlyAtACommandsEnd : Prop :=
  ∀ s t : State, step s = .next t → (t.rcode ≠ s.rcode ∨ t.rinfo ≠ s.rinfo) →
    t.phase = .idle ∧
      ((s.phase.receivesEvent = true ∧ s.inFw = false ∧ s.rxq ≠ []) ∨ s.phase = .fwSettle ∨
        ∃ ts, s.sched = .rst :: ts)

/-- R193: a wait is a hold that only the link lifts: while the SPE waits, no step of any agent, reset apart, changes the
phase, sends a byte or gives a response; where the turn is not the link's, the SPE still waits after it; and with
nothing scheduled the machine stands still. -/
def Obligations.WaitIsLiftedOnlyByTheLink : Prop :=
  ∀ s t : State, s.waits → (∀ ts, s.sched ≠ .rst :: ts) → step s = .next t →
    t.phase = s.phase ∧ t.txs = s.txs ∧ t.resps = s.resps ∧ ((∀ m ts, s.sched ≠ .link m :: ts) → t.waits) ∧
      (s.sched = [] → t = s)

/-! ## The streams (R31, R33, R42, R43, R57) -/

/-- R42: nothing is removed from `TXS` or reordered in it by any step, reset (which R34 has leave it empty) apart; what
a step sends is one byte (R48), appended, and only with `tx_full = 0`. -/
def Obligations.TransmitStreamIsAppendOnly : Prop :=
  ∀ s t : State, (∀ ts, s.sched ≠ .rst :: ts) → step s = .next t →
    t.txs = s.txs ∨ (s.txFull = false ∧ ∃ b, t.txs = s.txs ++ [b])

/-- R43, R57: a step, reset apart, either takes the oldest byte of `RXQ` or appends bytes behind the youngest. -/
def Obligations.ReceiveQueueIsFirstInFirstOut : Prop :=
  ∀ s t : State, (∀ ts, s.sched ≠ .rst :: ts) → step s = .next t →
    (∃ b, s.rxq = b :: t.rxq) ∨ ∃ bs, t.rxq = s.rxq ++ bs

/-- R33: `LOGS` only grows, reset apart, and a log event is emitted only by a failing check (inside a load its code is
kept: log entry 13). The responses of R62, which the model lists though the SPE does not store them (log entry 17), grow
by one record at a time. -/
def Obligations.LogsAndResponsesOnlyGrow : Prop :=
  ∀ s t : State, (∀ ts, s.sched ≠ .rst :: ts) → step s = .next t →
    (∃ es, t.logs = s.logs ++ es ∧ (es ≠ [] → s.phase.receivesEvent = true ∧ if s.inFw then t.fwCode ≠ .ok else t.rcode ≠ 0)) ∧
      (t.resps = s.resps ∨ ∃ r, t.resps = s.resps ++ [r])

/-- R55 (and R35, R45): no step of any agent, reset among them, writes a parameter; so every byte of the image reads as
before, and a record fetch, which reads nothing else, sees the bytes the image had before reset. -/
def Obligations.ParametersAndImageNeverChange : Prop :=
  ∀ s t : State, step s = .next t → t.par = s.par ∧ ∀ a, t.par.img.read a = s.par.img.read a

/-! ## LOADFW (R130 to R135) -/

/-- R130, R133: over a well-formed image `LOADFW` sets `INFW` and issues the begin-load command with an empty payload;
over any other image it is refused. `CURSOR` is not written. The latch of the begin-load command is log entry 8. -/
def Obligations.LoadfwIssuesBeginLoadOrRefuses : Prop :=
  ∀ s : State, s.phase = .idle →
    (s.par.imageWellFormed = true → ∃ pb : Vector Byte 255,
      exec .loadfw s = .next { s with
        inFw := true, fwBegin := true, opLo := s.par.fwBeginOpcode.extractLsb' 0 8
        opHi := s.par.fwBeginOpcode.extractLsb' 8 8, len := 0, idx := 0, pb := pb, phase := .txType
        fresh := s.fresh + 1 }) ∧
    (s.par.imageWellFormed = false → exec .loadfw s = .refused .imageNotWellFormed)

/-- R131: a record met between commands is issued with its two opcode bytes in stored order; that anywhere else it is
refused by name is log entry 2. -/
def Obligations.RecordIsIssuedBetweenCommands : Prop :=
  ∀ (s : State) (lo hi : Byte) (p : List Byte), p.length ≤ 255 →
    (s.phase = .fwNext → ∃ pb : Vector Byte 255, (∀ (i : Nat) (h : i < p.length) (h' : i < 255), pb[i] = p[i]) ∧
      exec (.frameFwrec lo hi p) s = .next { s with
        opLo := lo, opHi := hi, len := BitVec.ofNat 8 p.length, idx := 0, pb := pb, phase := .txType
        fresh := s.fresh + 1 }) ∧
    (s.phase ≠ .fwNext → exec (.frameFwrec lo hi p) s = .refused .recordOutsideLoad)

/-- R133: `WF(IMG)` holds exactly of the images that records tile. -/
def Obligations.WellFormedImagesAreTheTiledOnes : Prop :=
  ∀ p : Params, p.imageWellFormed = true ↔
    ∃ c : List Nat, c.head? = some 0 ∧ c.getLast? = some p.fwSize ∧
      c.IsChain fun a b => a < p.fwSize ∧ b = a + 3 + (p.img.read (a + 2)).toNat

/-- R130, R134, R132: the load goes to the settle delay when no record remains, and ends in one step after it (log entry
15), writing the result of the last command (kept as log entry 13 says) to `RCODE` and `RINFO`. -/
def Obligations.LoadEndsAfterTheSettleDelay : Prop :=
  ∀ s : State,
    (s.phase = .fwNext → s.par.fwSize ≤ s.cursor.toNat → speStep s = .next { s with phase := .fwSettle }) ∧
      (s.phase = .fwSettle → speStep s = .next { s with
        phase := .idle, inFw := false, rcode := s.fwCode.toBits, rinfo := s.fwInfo
        resps := s.resps ++ [.result s.fwCode.toBits s.fwInfo] })

/-- R130, R131, R135 (a) to (d): over an image of `N` records, with the link quiet and a good answer to every command
standing in `RXQ`, in order, before the load is issued, a `LOADFW` sends the begin-load frame and then every record's
frame once, in image order, and ends with `Ok`, the cursor at the image's size and exactly the answers removed. -/
def Obligations.LoadOfAGoodImageSendsEveryRecord : Prop :=
  ∀ (s t : State) (rs : List Rec) (a0 rest : List Byte) (as : List (List Byte)),
    s.phase = .idle → s.linkQuiet → s.par.fwSize < 2 ^ 31 → holdsRecords s.par rs →
    accepted (s.par.fwBeginOpcode.extractLsb' 0 8) (s.par.fwBeginOpcode.extractLsb' 8 8) a0 → allAccepted rs as →
    s.rxq = a0 ++ as.flatten ++ rest → exec .loadfw s = .next t →
    ∃ k u, run k t = .next u ∧ u.phase = .idle ∧ u.inFw = false ∧ u.rcode = 0 ∧ u.rinfo = 0 ∧
      u.cursor.toNat = s.par.fwSize ∧ u.rxq = rest ∧ u.logs = s.logs ∧ u.resps = s.resps ++ [.result 0 0] ∧
      u.txs = s.txs ++ frameBytes (s.par.fwBeginOpcode.extractLsb' 0 8) (s.par.fwBeginOpcode.extractLsb' 8 8) [] ++
        recordFrames rs

/-- R132, R135 (e): with the link quiet and the answers standing in `RXQ`, in order, before the load is issued, if the
command of record `K` is the first to fail, its frame has been sent and nothing of the later records, the cursor stays
at the record, its code is logged and is the result. -/
def Obligations.LoadAbortsAtTheFirstFailingRecord : Prop :=
  ∀ (s t : State) (done later : List Rec) (r : Rec) (a0 rest : List Byte) (as : List (List Byte))
    (b0 b1 b2 b3 b4 b5 b6 : Byte),
    s.phase = .idle → s.linkQuiet → s.par.fwSize < 2 ^ 31 → holdsRecords s.par (done ++ r :: later) →
    accepted (s.par.fwBeginOpcode.extractLsb' 0 8) (s.par.fwBeginOpcode.extractLsb' 8 8) a0 → allAccepted done as →
    (verdict r.lo r.hi b0 b1 b2 b3 b4 b5 b6).1 ≠ .ok →
    s.rxq = a0 ++ as.flatten ++ ([b0, b1, b2, b3, b4, b5, b6] ++ rest) → exec .loadfw s = .next t →
    let v := verdict r.lo r.hi b0 b1 b2 b3 b4 b5 b6
    ∃ k u, run k t = .next u ∧ u.phase = .idle ∧ u.inFw = false ∧ u.rcode = v.1.toBits ∧ u.rinfo = v.2 ∧
      u.cursor.toNat = (done.flatMap Rec.bytes).length ∧
      u.rxq = ([b0, b1, b2, b3, b4, b5, b6] ++ rest).drop (bytesRemoved v.1) ∧
      u.logs = s.logs ++ (if v.1 = .deviceReportedError then [.deviceStatus v.2] else []) ++ [.fwAbort v.1.toBits] ∧
      u.resps = s.resps ++ [.result v.1.toBits v.2] ∧
      u.txs = s.txs ++ frameBytes (s.par.fwBeginOpcode.extractLsb' 0 8) (s.par.fwBeginOpcode.extractLsb' 8 8) [] ++
        recordFrames done ++ frameBytes r.lo r.hi r.payload

/-- R132, D16: a failing begin-load command ends the load as a failing record does: no record is sent and `CURSOR` is
not written. -/
def Obligations.FailingBeginLoadSendsNoRecord : Prop :=
  ∀ (s t : State) (b0 b1 b2 b3 b4 b5 b6 : Byte) (rest : List Byte),
    s.phase = .idle → s.linkQuiet → s.rxq = [b0, b1, b2, b3, b4, b5, b6] ++ rest → exec .loadfw s = .next t →
    let lo := s.par.fwBeginOpcode.extractLsb' 0 8
    let hi := s.par.fwBeginOpcode.extractLsb' 8 8
    let v := verdict lo hi b0 b1 b2 b3 b4 b5 b6
    v.1 ≠ .ok →
    ∃ u, run (4 + bytesRemoved v.1 + 1) t = .next u ∧ u.phase = .idle ∧ u.inFw = false ∧ u.cursor = s.cursor ∧
      u.rcode = v.1.toBits ∧ u.rinfo = v.2 ∧ u.txs = s.txs ++ frameBytes lo hi [] ∧
      u.resps = s.resps ++ [.result v.1.toBits v.2]

/-! ## Frames and the link (R63, R64, R66, R199) -/

/-- R64: the link's event frame is appended to `RXQ` whole where there is room for its seven bytes; where there is not,
the bytes that fit are appended and the others wait with the link, in order (log entry 4). It completes in every state;
an event frame as one move of the link's is log entry 2. -/
def Obligations.EventFramesAreDelivered : Prop :=
  ∀ (s : State) (c lo hi : Byte),
    (s.rxq.length + 7 ≤ s.par.rxqDepth →
      exec (.frameEvtStatus lo hi) s =
        .next { s with rxq := s.rxq ++ [0x04, 0x0f, 0x04, 0x00, 0x00, lo, hi] } ∧
      exec (.frameEvtComplete c lo hi) s = .next { s with rxq := s.rxq ++ [0x04, 0x0e, 0x04, c, lo, hi, 0x00] }) ∧
    exec (.frameEvtStatus lo hi) s = .next { s with
      rxq := s.rxq ++ [0x04, 0x0f, 0x04, 0x00, 0x00, lo, hi].take (s.par.rxqDepth - s.rxq.length)
      sched := (([0x04, 0x0f, 0x04, 0x00, 0x00, lo, hi].drop (s.par.rxqDepth - s.rxq.length)).map fun b =>
        .link (.deliver b)) ++ s.sched } ∧
    exec (.frameEvtComplete c lo hi) s = .next { s with
      rxq := s.rxq ++ [0x04, 0x0e, 0x04, c, lo, hi, 0x00].take (s.par.rxqDepth - s.rxq.length)
      sched := (([0x04, 0x0e, 0x04, c, lo, hi, 0x00].drop (s.par.rxqDepth - s.rxq.length)).map fun b =>
        .link (.deliver b)) ++ s.sched }

/-- R199, R31: a delivery appends its byte while there is room; into a full queue the link has no move. That the
delivery then stays the next one of the schedule, while the SPE or the host moves as if nothing were scheduled, is log
entry 4. -/
def Obligations.DeliveryNeedsRoom : Prop :=
  ∀ (s : State) (b : Byte) (ts : List Turn), s.sched = .link (.deliver b) :: ts →
    (s.rxq.length < s.par.rxqDepth → step s = .next { s with rxq := s.rxq ++ [b], sched := ts }) ∧
      (s.par.rxqDepth ≤ s.rxq.length →
        step s = cooperate s ∧ (∀ t, step s = .next t → t.sched = .link (.deliver b) :: ts) ∧
          (s.phase = .idle → s.hostq = [] → step s = .next s))

/-- R66, R153: `FRAME.ACL` starts a sequence of `WRBYTE`s (that it does so as one move of the host's, which queues the
others, is log entry 2; the widths of its fields are log entry 14), 0x02 first; with the link quiet the sequence appends
to `TXS` the type byte, the fields in order, the channel id and the five GATT bytes, takes nothing from `RXQ` and writes
neither `RCODE` nor `RINFO`. -/
def Obligations.AclFrameIsSentByteByByte : Prop :=
  ∀ (s : State) (handle totalLen l2capLen gatt : List Byte), s.phase = .idle →
    let fields := handle ++ totalLen ++ l2capLen ++ aclCidField ++ gatt
    ∃ t, exec (.frameAcl handle totalLen l2capLen gatt) s = .next t ∧ t.phase = .tWrbyte ∧ t.portByte = 0x02 ∧
      (s.linkQuiet → ∃ u, run (1 + 2 * fields.length) t = .next u ∧ u.phase = .idle ∧
        u.txs = s.txs ++ [0x02] ++ fields ∧ u.rxq = s.rxq ∧ u.rcode = s.rcode ∧ u.rinfo = s.rinfo ∧
        u.hostq = s.hostq)

/-- R190, R191: `rst` gives the launch state whatever was in progress: no result is produced, and the SPE is idle with
empty streams. The values of the other registers are the model's (log entries 10 and 11). -/
def Obligations.ResetAbandonsTheOperation : Prop :=
  ∀ (s : State) (ts : List Turn), s.sched = .rst :: ts →
    ∃ t, step s = .next t ∧ t.phase = .idle ∧ t.busy = false ∧ t.inFw = false ∧ t.txs = [] ∧ t.logs = [] ∧
      t.rxq.length ≤ s.par.rxqDepth ∧ t.resps = s.resps ∧ t.par = s.par

/-- R21, R30: what the host reads are the registers' values. That a read before the first result gives one too, where
R199 has it fault, is log entry 10; that during a load `RCODE` and `RINFO` still show the result before it is log entry
13. -/
def Obligations.HostReadsTheRegisters : Prop :=
  ∀ s : State, s.hostView = ⟨decide (s.phase ≠ .idle), s.phase, s.opLo, s.opHi, s.len, s.idx, s.cursor, s.rcode, s.rinfo⟩

/-! ## A client (R144) -/

/-- R144, S7: with the link quiet and a good answer waiting, the two requests of `setBaudRate(115200)` append exactly
the ten bytes to `TXS`, whatever the vendor OGF is. -/
def Obligations.BaudRateClientSendsTenBytes : Prop :=
  ∀ (s : State) (rest : List Byte), s.phase = .idle → s.inFw = false → s.linkQuiet →
    s.hostq = Client.items (Client.setBaudRate 115200) →
    let h : Byte := Config.ogfVendor.setWidth 8 <<< 2
    s.rxq = [0x04, 0x0e, 0x04, 0x01, 0x18, h, 0x00] ++ rest →
    ∃ u, run 19 s = .next u ∧ u.phase = .idle ∧ u.rcode = 0 ∧ u.hostq = [] ∧ u.rxq = rest ∧
      u.txs = s.txs ++ [0x01, 0x18, h, 0x06, 0x00, 0x00, 0x00, 0xC2, 0x01, 0x00]

/-! ## The link's flag (R27, R31, R199) -/

/-- R27, R31, R199: the link's move raises or drops `tx_full` and changes nothing else, and no other step of any agent,
reset among them (log entry 11), changes it. -/
def Obligations.OnlyTheLinkMovesTxFull : Prop :=
  ∀ s : State,
    (∀ v ts, s.sched = .link (.txFull v) :: ts → step s = .next { s with txFull := v, sched := ts }) ∧
      ∀ t, step s = .next t → t.txFull ≠ s.txFull → ∃ ts, s.sched = .link (.txFull t.txFull) :: ts
end

