-- ==== Sys2Proof/Laws/Decode.lean ====
section
/-! SUPPORT. The small lemmas of the encoding's parts: byte split and join (R84), payloads, the channel id field. -/

namespace Sys2Proof

/-! ## Byte split and join (R81 to R84) -/

@[simp] theorem lowByte_joinBytes (l h : Byte) : lowByte (joinBytes l h) = l := by
  ext i hi
  simp [lowByte, joinBytes, hi, show i < 16 by omega]

@[simp] theorem highByte_joinBytes (l h : Byte) : highByte (joinBytes l h) = h := by
  ext i hi
  simp [highByte, joinBytes, hi, show 8 + i < 16 by omega]

@[simp] theorem joinBytes_low_high (v : Word16) : joinBytes (lowByte v) (highByte v) = v := by
  ext i hi
  by_cases h : i < 8
  · simp [lowByte, highByte, joinBytes, hi, h]
  · simp [lowByte, highByte, joinBytes, hi, h, show i - 8 < 8 by omega, show 8 + (i - 8) = i by omega]

theorem toNat_lowByte (v : Word16) : (lowByte v).toNat = v.toNat % 256 := by
  simp [lowByte]

theorem toNat_highByte (v : Word16) : (highByte v).toNat = v.toNat / 256 := by
  have := v.isLt
  simp [highByte, Nat.shiftRight_eq_div_pow]
  omega

theorem toNat_joinBytes (l h : Byte) : (joinBytes l h).toNat = h.toNat * 256 + l.toNat := by
  have h1 := toNat_lowByte (joinBytes l h)
  have h2 := toNat_highByte (joinBytes l h)
  rw [lowByte_joinBytes] at h1
  rw [highByte_joinBytes] at h2
  omega

/-! ## Payloads -/

theorem payloadFits_iff {p : List Byte} : payloadFits p = true ↔ p.length ≤ 255 :=
  decide_eq_true_iff

theorem toNat_lenByte {p : List Byte} (h : p.length ≤ 255) : (lenByte p).toNat = p.length := by
  simp [lenByte]
  omega

/-- A payload that fits is read back behind its length byte, with what follows it. -/
theorem takePayload_append {p : List Byte} (h : p.length ≤ 255) (rest : List Byte) (k : List Byte → Instr) :
    takePayload (lenByte p) (p ++ rest) k = .ok (k p, rest) := by
  simp [takePayload, toNat_lenByte h]

/-! ## The channel id field -/

@[simp] theorem length_leBytes (w n : Nat) : (leBytes w n).length = w := by simp [leBytes]

@[simp] theorem length_aclCidField : aclCidField.length = Config.aclCidBytes := by
  unfold aclCidField
  split <;> simp_all

end Sys2Proof
end

