-- ==== Sys2Proof/Laws/State.lean ====
section
/-! SUPPORT. What each named update of the state does to each field: one lemma per field, true by rfl. -/

namespace Sys2Proof.Machine

variable (s : State)

/-! ## `respond` -/

@[simp] theorem respond_phase (r : Response) : (respond r s).phase = s.phase := rfl
@[simp] theorem respond_inFw (r : Response) : (respond r s).inFw = s.inFw := rfl
@[simp] theorem respond_fwBegin (r : Response) : (respond r s).fwBegin = s.fwBegin := rfl
@[simp] theorem respond_opLo (r : Response) : (respond r s).opLo = s.opLo := rfl
@[simp] theorem respond_opHi (r : Response) : (respond r s).opHi = s.opHi := rfl
@[simp] theorem respond_len (r : Response) : (respond r s).len = s.len := rfl
@[simp] theorem respond_idx (r : Response) : (respond r s).idx = s.idx := rfl
@[simp] theorem respond_pb (r : Response) : (respond r s).pb = s.pb := rfl
@[simp] theorem respond_cursor (r : Response) : (respond r s).cursor = s.cursor := rfl
@[simp] theorem respond_rcode (r : Response) : (respond r s).rcode = s.rcode := rfl
@[simp] theorem respond_rinfo (r : Response) : (respond r s).rinfo = s.rinfo := rfl
@[simp] theorem respond_fwCode (r : Response) : (respond r s).fwCode = s.fwCode := rfl
@[simp] theorem respond_fwInfo (r : Response) : (respond r s).fwInfo = s.fwInfo := rfl
@[simp] theorem respond_portByte (r : Response) : (respond r s).portByte = s.portByte := rfl
@[simp] theorem respond_rxq (r : Response) : (respond r s).rxq = s.rxq := rfl
@[simp] theorem respond_txs (r : Response) : (respond r s).txs = s.txs := rfl
@[simp] theorem respond_txFull (r : Response) : (respond r s).txFull = s.txFull := rfl
@[simp] theorem respond_logs (r : Response) : (respond r s).logs = s.logs := rfl
@[simp] theorem respond_resps (r : Response) : (respond r s).resps = s.resps ++ [r] := rfl
@[simp] theorem respond_hostq (r : Response) : (respond r s).hostq = s.hostq := rfl
@[simp] theorem respond_sched (r : Response) : (respond r s).sched = s.sched := rfl
@[simp] theorem respond_fresh (r : Response) : (respond r s).fresh = s.fresh := rfl
@[simp] theorem respond_par (r : Response) : (respond r s).par = s.par := rfl

/-! ## `log` -/

@[simp] theorem log_phase (e : LogEvent) : (log e s).phase = s.phase := rfl
@[simp] theorem log_inFw (e : LogEvent) : (log e s).inFw = s.inFw := rfl
@[simp] theorem log_fwBegin (e : LogEvent) : (log e s).fwBegin = s.fwBegin := rfl
@[simp] theorem log_opLo (e : LogEvent) : (log e s).opLo = s.opLo := rfl
@[simp] theorem log_opHi (e : LogEvent) : (log e s).opHi = s.opHi := rfl
@[simp] theorem log_len (e : LogEvent) : (log e s).len = s.len := rfl
@[simp] theorem log_idx (e : LogEvent) : (log e s).idx = s.idx := rfl
@[simp] theorem log_pb (e : LogEvent) : (log e s).pb = s.pb := rfl
@[simp] theorem log_cursor (e : LogEvent) : (log e s).cursor = s.cursor := rfl
@[simp] theorem log_rcode (e : LogEvent) : (log e s).rcode = s.rcode := rfl
@[simp] theorem log_rinfo (e : LogEvent) : (log e s).rinfo = s.rinfo := rfl
@[simp] theorem log_fwCode (e : LogEvent) : (log e s).fwCode = s.fwCode := rfl
@[simp] theorem log_fwInfo (e : LogEvent) : (log e s).fwInfo = s.fwInfo := rfl
@[simp] theorem log_portByte (e : LogEvent) : (log e s).portByte = s.portByte := rfl
@[simp] theorem log_rxq (e : LogEvent) : (log e s).rxq = s.rxq := rfl
@[simp] theorem log_txs (e : LogEvent) : (log e s).txs = s.txs := rfl
@[simp] theorem log_txFull (e : LogEvent) : (log e s).txFull = s.txFull := rfl
@[simp] theorem log_logs (e : LogEvent) : (log e s).logs = s.logs ++ [e] := rfl
@[simp] theorem log_resps (e : LogEvent) : (log e s).resps = s.resps := rfl
@[simp] theorem log_hostq (e : LogEvent) : (log e s).hostq = s.hostq := rfl
@[simp] theorem log_sched (e : LogEvent) : (log e s).sched = s.sched := rfl
@[simp] theorem log_fresh (e : LogEvent) : (log e s).fresh = s.fresh := rfl
@[simp] theorem log_par (e : LogEvent) : (log e s).par = s.par := rfl

/-! ## `goto` -/

@[simp] theorem goto_phase (p : Phase) : (goto p s).phase = p := rfl
@[simp] theorem goto_inFw (p : Phase) : (goto p s).inFw = s.inFw := rfl
@[simp] theorem goto_fwBegin (p : Phase) : (goto p s).fwBegin = s.fwBegin := rfl
@[simp] theorem goto_opLo (p : Phase) : (goto p s).opLo = s.opLo := rfl
@[simp] theorem goto_opHi (p : Phase) : (goto p s).opHi = s.opHi := rfl
@[simp] theorem goto_len (p : Phase) : (goto p s).len = s.len := rfl
@[simp] theorem goto_idx (p : Phase) : (goto p s).idx = s.idx := rfl
@[simp] theorem goto_pb (p : Phase) : (goto p s).pb = s.pb := rfl
@[simp] theorem goto_cursor (p : Phase) : (goto p s).cursor = s.cursor := rfl
@[simp] theorem goto_rcode (p : Phase) : (goto p s).rcode = s.rcode := rfl
@[simp] theorem goto_rinfo (p : Phase) : (goto p s).rinfo = s.rinfo := rfl
@[simp] theorem goto_fwCode (p : Phase) : (goto p s).fwCode = s.fwCode := rfl
@[simp] theorem goto_fwInfo (p : Phase) : (goto p s).fwInfo = s.fwInfo := rfl
@[simp] theorem goto_portByte (p : Phase) : (goto p s).portByte = s.portByte := rfl
@[simp] theorem goto_rxq (p : Phase) : (goto p s).rxq = s.rxq := rfl
@[simp] theorem goto_txs (p : Phase) : (goto p s).txs = s.txs := rfl
@[simp] theorem goto_txFull (p : Phase) : (goto p s).txFull = s.txFull := rfl
@[simp] theorem goto_logs (p : Phase) : (goto p s).logs = s.logs := rfl
@[simp] theorem goto_resps (p : Phase) : (goto p s).resps = s.resps := rfl
@[simp] theorem goto_hostq (p : Phase) : (goto p s).hostq = s.hostq := rfl
@[simp] theorem goto_sched (p : Phase) : (goto p s).sched = s.sched := rfl
@[simp] theorem goto_fresh (p : Phase) : (goto p s).fresh = s.fresh := rfl
@[simp] theorem goto_par (p : Phase) : (goto p s).par = s.par := rfl

/-! ## `finish` -/

@[simp] theorem finish_phase (c : ResultCode) (i : Byte) : (finish c i s).phase = .idle := rfl
@[simp] theorem finish_inFw (c : ResultCode) (i : Byte) : (finish c i s).inFw = false := rfl
@[simp] theorem finish_fwBegin (c : ResultCode) (i : Byte) : (finish c i s).fwBegin = s.fwBegin := rfl
@[simp] theorem finish_opLo (c : ResultCode) (i : Byte) : (finish c i s).opLo = s.opLo := rfl
@[simp] theorem finish_opHi (c : ResultCode) (i : Byte) : (finish c i s).opHi = s.opHi := rfl
@[simp] theorem finish_len (c : ResultCode) (i : Byte) : (finish c i s).len = s.len := rfl
@[simp] theorem finish_idx (c : ResultCode) (i : Byte) : (finish c i s).idx = s.idx := rfl
@[simp] theorem finish_pb (c : ResultCode) (i : Byte) : (finish c i s).pb = s.pb := rfl
@[simp] theorem finish_cursor (c : ResultCode) (i : Byte) : (finish c i s).cursor = s.cursor := rfl
@[simp] theorem finish_rcode (c : ResultCode) (i : Byte) : (finish c i s).rcode = c.toBits := rfl
@[simp] theorem finish_rinfo (c : ResultCode) (i : Byte) : (finish c i s).rinfo = i := rfl
@[simp] theorem finish_fwCode (c : ResultCode) (i : Byte) : (finish c i s).fwCode = s.fwCode := rfl
@[simp] theorem finish_fwInfo (c : ResultCode) (i : Byte) : (finish c i s).fwInfo = s.fwInfo := rfl
@[simp] theorem finish_portByte (c : ResultCode) (i : Byte) : (finish c i s).portByte = s.portByte := rfl
@[simp] theorem finish_rxq (c : ResultCode) (i : Byte) : (finish c i s).rxq = s.rxq := rfl
@[simp] theorem finish_txs (c : ResultCode) (i : Byte) : (finish c i s).txs = s.txs := rfl
@[simp] theorem finish_txFull (c : ResultCode) (i : Byte) : (finish c i s).txFull = s.txFull := rfl
@[simp] theorem finish_logs (c : ResultCode) (i : Byte) : (finish c i s).logs = s.logs := rfl
@[simp] theorem finish_resps (c : ResultCode) (i : Byte) : (finish c i s).resps = s.resps ++ [.result c.toBits i] := rfl
@[simp] theorem finish_hostq (c : ResultCode) (i : Byte) : (finish c i s).hostq = s.hostq := rfl
@[simp] theorem finish_sched (c : ResultCode) (i : Byte) : (finish c i s).sched = s.sched := rfl
@[simp] theorem finish_fresh (c : ResultCode) (i : Byte) : (finish c i s).fresh = s.fresh := rfl
@[simp] theorem finish_par (c : ResultCode) (i : Byte) : (finish c i s).par = s.par := rfl

/-! ## `endLoad` -/

@[simp] theorem endLoad_phase : (endLoad s).phase = .idle := rfl
@[simp] theorem endLoad_inFw : (endLoad s).inFw = false := rfl
@[simp] theorem endLoad_fwBegin : (endLoad s).fwBegin = s.fwBegin := rfl
@[simp] theorem endLoad_opLo : (endLoad s).opLo = s.opLo := rfl
@[simp] theorem endLoad_opHi : (endLoad s).opHi = s.opHi := rfl
@[simp] theorem endLoad_len : (endLoad s).len = s.len := rfl
@[simp] theorem endLoad_idx : (endLoad s).idx = s.idx := rfl
@[simp] theorem endLoad_pb : (endLoad s).pb = s.pb := rfl
@[simp] theorem endLoad_cursor : (endLoad s).cursor = s.cursor := rfl
@[simp] theorem endLoad_rcode : (endLoad s).rcode = s.fwCode.toBits := rfl
@[simp] theorem endLoad_rinfo : (endLoad s).rinfo = s.fwInfo := rfl
@[simp] theorem endLoad_fwCode : (endLoad s).fwCode = s.fwCode := rfl
@[simp] theorem endLoad_fwInfo : (endLoad s).fwInfo = s.fwInfo := rfl
@[simp] theorem endLoad_portByte : (endLoad s).portByte = s.portByte := rfl
@[simp] theorem endLoad_rxq : (endLoad s).rxq = s.rxq := rfl
@[simp] theorem endLoad_txs : (endLoad s).txs = s.txs := rfl
@[simp] theorem endLoad_txFull : (endLoad s).txFull = s.txFull := rfl
@[simp] theorem endLoad_logs : (endLoad s).logs = s.logs := rfl
@[simp] theorem endLoad_resps : (endLoad s).resps = s.resps ++ [.result s.fwCode.toBits s.fwInfo] := rfl
@[simp] theorem endLoad_hostq : (endLoad s).hostq = s.hostq := rfl
@[simp] theorem endLoad_sched : (endLoad s).sched = s.sched := rfl
@[simp] theorem endLoad_fresh : (endLoad s).fresh = s.fresh := rfl
@[simp] theorem endLoad_par : (endLoad s).par = s.par := rfl

/-! ## `abortLoad` -/

@[simp] theorem abortLoad_phase (c : ResultCode) (i : Byte) : (abortLoad c i s).phase = .fwSettle := rfl
@[simp] theorem abortLoad_inFw (c : ResultCode) (i : Byte) : (abortLoad c i s).inFw = s.inFw := rfl
@[simp] theorem abortLoad_fwBegin (c : ResultCode) (i : Byte) : (abortLoad c i s).fwBegin = false := rfl
@[simp] theorem abortLoad_opLo (c : ResultCode) (i : Byte) : (abortLoad c i s).opLo = s.opLo := rfl
@[simp] theorem abortLoad_opHi (c : ResultCode) (i : Byte) : (abortLoad c i s).opHi = s.opHi := rfl
@[simp] theorem abortLoad_len (c : ResultCode) (i : Byte) : (abortLoad c i s).len = s.len := rfl
@[simp] theorem abortLoad_idx (c : ResultCode) (i : Byte) : (abortLoad c i s).idx = s.idx := rfl
@[simp] theorem abortLoad_pb (c : ResultCode) (i : Byte) : (abortLoad c i s).pb = s.pb := rfl
@[simp] theorem abortLoad_cursor (c : ResultCode) (i : Byte) : (abortLoad c i s).cursor = s.cursor := rfl
@[simp] theorem abortLoad_rcode (c : ResultCode) (i : Byte) : (abortLoad c i s).rcode = s.rcode := rfl
@[simp] theorem abortLoad_rinfo (c : ResultCode) (i : Byte) : (abortLoad c i s).rinfo = s.rinfo := rfl
@[simp] theorem abortLoad_fwCode (c : ResultCode) (i : Byte) : (abortLoad c i s).fwCode = c := rfl
@[simp] theorem abortLoad_fwInfo (c : ResultCode) (i : Byte) : (abortLoad c i s).fwInfo = i := rfl
@[simp] theorem abortLoad_portByte (c : ResultCode) (i : Byte) : (abortLoad c i s).portByte = s.portByte := rfl
@[simp] theorem abortLoad_rxq (c : ResultCode) (i : Byte) : (abortLoad c i s).rxq = s.rxq := rfl
@[simp] theorem abortLoad_txs (c : ResultCode) (i : Byte) : (abortLoad c i s).txs = s.txs := rfl
@[simp] theorem abortLoad_txFull (c : ResultCode) (i : Byte) : (abortLoad c i s).txFull = s.txFull := rfl
@[simp] theorem abortLoad_logs (c : ResultCode) (i : Byte) : (abortLoad c i s).logs = s.logs ++ [.fwAbort c.toBits] := rfl
@[simp] theorem abortLoad_resps (c : ResultCode) (i : Byte) : (abortLoad c i s).resps = s.resps := rfl
@[simp] theorem abortLoad_hostq (c : ResultCode) (i : Byte) : (abortLoad c i s).hostq = s.hostq := rfl
@[simp] theorem abortLoad_sched (c : ResultCode) (i : Byte) : (abortLoad c i s).sched = s.sched := rfl
@[simp] theorem abortLoad_fresh (c : ResultCode) (i : Byte) : (abortLoad c i s).fresh = s.fresh := rfl
@[simp] theorem abortLoad_par (c : ResultCode) (i : Byte) : (abortLoad c i s).par = s.par := rfl

/-! ## `advanceLoad` -/

@[simp] theorem advanceLoad_phase : (advanceLoad s).phase = .fwNext := rfl
@[simp] theorem advanceLoad_inFw : (advanceLoad s).inFw = s.inFw := rfl
@[simp] theorem advanceLoad_fwBegin : (advanceLoad s).fwBegin = false := rfl
@[simp] theorem advanceLoad_opLo : (advanceLoad s).opLo = s.opLo := rfl
@[simp] theorem advanceLoad_opHi : (advanceLoad s).opHi = s.opHi := rfl
@[simp] theorem advanceLoad_len : (advanceLoad s).len = s.len := rfl
@[simp] theorem advanceLoad_idx : (advanceLoad s).idx = s.idx := rfl
@[simp] theorem advanceLoad_pb : (advanceLoad s).pb = s.pb := rfl
@[simp] theorem advanceLoad_cursor : (advanceLoad s).cursor =
    if s.fwBegin then 0 else s.cursor + BitVec.ofNat 32 Config.recHeader + s.len.setWidth 32 := rfl
@[simp] theorem advanceLoad_rcode : (advanceLoad s).rcode = s.rcode := rfl
@[simp] theorem advanceLoad_rinfo : (advanceLoad s).rinfo = s.rinfo := rfl
@[simp] theorem advanceLoad_fwCode : (advanceLoad s).fwCode = .ok := rfl
@[simp] theorem advanceLoad_fwInfo : (advanceLoad s).fwInfo = 0 := rfl
@[simp] theorem advanceLoad_portByte : (advanceLoad s).portByte = s.portByte := rfl
@[simp] theorem advanceLoad_rxq : (advanceLoad s).rxq = s.rxq := rfl
@[simp] theorem advanceLoad_txs : (advanceLoad s).txs = s.txs := rfl
@[simp] theorem advanceLoad_txFull : (advanceLoad s).txFull = s.txFull := rfl
@[simp] theorem advanceLoad_logs : (advanceLoad s).logs = s.logs := rfl
@[simp] theorem advanceLoad_resps : (advanceLoad s).resps = s.resps := rfl
@[simp] theorem advanceLoad_hostq : (advanceLoad s).hostq = s.hostq := rfl
@[simp] theorem advanceLoad_sched : (advanceLoad s).sched = s.sched := rfl
@[simp] theorem advanceLoad_fresh : (advanceLoad s).fresh = s.fresh := rfl
@[simp] theorem advanceLoad_par : (advanceLoad s).par = s.par := rfl

/-! ## `issueCommand` -/

@[simp] theorem issueCommand_phase (l h : Byte) (p : List Byte) : (issueCommand l h p s).phase = .txType := rfl
@[simp] theorem issueCommand_inFw (l h : Byte) (p : List Byte) : (issueCommand l h p s).inFw = s.inFw := rfl
@[simp] theorem issueCommand_fwBegin (l h : Byte) (p : List Byte) : (issueCommand l h p s).fwBegin = s.fwBegin := rfl
@[simp] theorem issueCommand_opLo (l h : Byte) (p : List Byte) : (issueCommand l h p s).opLo = l := rfl
@[simp] theorem issueCommand_opHi (l h : Byte) (p : List Byte) : (issueCommand l h p s).opHi = h := rfl
@[simp] theorem issueCommand_len (l h : Byte) (p : List Byte) : (issueCommand l h p s).len = lenByte p := rfl
@[simp] theorem issueCommand_idx (l h : Byte) (p : List Byte) : (issueCommand l h p s).idx = 0 := rfl
@[simp] theorem issueCommand_pb (l h : Byte) (p : List Byte) : (issueCommand l h p s).pb = loadPayload p s.fresh := rfl
@[simp] theorem issueCommand_cursor (l h : Byte) (p : List Byte) : (issueCommand l h p s).cursor = s.cursor := rfl
@[simp] theorem issueCommand_rcode (l h : Byte) (p : List Byte) : (issueCommand l h p s).rcode = s.rcode := rfl
@[simp] theorem issueCommand_rinfo (l h : Byte) (p : List Byte) : (issueCommand l h p s).rinfo = s.rinfo := rfl
@[simp] theorem issueCommand_fwCode (l h : Byte) (p : List Byte) : (issueCommand l h p s).fwCode = s.fwCode := rfl
@[simp] theorem issueCommand_fwInfo (l h : Byte) (p : List Byte) : (issueCommand l h p s).fwInfo = s.fwInfo := rfl
@[simp] theorem issueCommand_portByte (l h : Byte) (p : List Byte) : (issueCommand l h p s).portByte = s.portByte := rfl
@[simp] theorem issueCommand_rxq (l h : Byte) (p : List Byte) : (issueCommand l h p s).rxq = s.rxq := rfl
@[simp] theorem issueCommand_txs (l h : Byte) (p : List Byte) : (issueCommand l h p s).txs = s.txs := rfl
@[simp] theorem issueCommand_txFull (l h : Byte) (p : List Byte) : (issueCommand l h p s).txFull = s.txFull := rfl
@[simp] theorem issueCommand_logs (l h : Byte) (p : List Byte) : (issueCommand l h p s).logs = s.logs := rfl
@[simp] theorem issueCommand_resps (l h : Byte) (p : List Byte) : (issueCommand l h p s).resps = s.resps := rfl
@[simp] theorem issueCommand_hostq (l h : Byte) (p : List Byte) : (issueCommand l h p s).hostq = s.hostq := rfl
@[simp] theorem issueCommand_sched (l h : Byte) (p : List Byte) : (issueCommand l h p s).sched = s.sched := rfl
@[simp] theorem issueCommand_fresh (l h : Byte) (p : List Byte) : (issueCommand l h p s).fresh = s.fresh + 1 := rfl
@[simp] theorem issueCommand_par (l h : Byte) (p : List Byte) : (issueCommand l h p s).par = s.par := rfl

/-! ## `deliverBytes` -/

@[simp] theorem deliverBytes_phase (bs : List Byte) : (deliverBytes bs s).phase = s.phase := rfl
@[simp] theorem deliverBytes_inFw (bs : List Byte) : (deliverBytes bs s).inFw = s.inFw := rfl
@[simp] theorem deliverBytes_fwBegin (bs : List Byte) : (deliverBytes bs s).fwBegin = s.fwBegin := rfl
@[simp] theorem deliverBytes_opLo (bs : List Byte) : (deliverBytes bs s).opLo = s.opLo := rfl
@[simp] theorem deliverBytes_opHi (bs : List Byte) : (deliverBytes bs s).opHi = s.opHi := rfl
@[simp] theorem deliverBytes_len (bs : List Byte) : (deliverBytes bs s).len = s.len := rfl
@[simp] theorem deliverBytes_idx (bs : List Byte) : (deliverBytes bs s).idx = s.idx := rfl
@[simp] theorem deliverBytes_pb (bs : List Byte) : (deliverBytes bs s).pb = s.pb := rfl
@[simp] theorem deliverBytes_cursor (bs : List Byte) : (deliverBytes bs s).cursor = s.cursor := rfl
@[simp] theorem deliverBytes_rcode (bs : List Byte) : (deliverBytes bs s).rcode = s.rcode := rfl
@[simp] theorem deliverBytes_rinfo (bs : List Byte) : (deliverBytes bs s).rinfo = s.rinfo := rfl
@[simp] theorem deliverBytes_fwCode (bs : List Byte) : (deliverBytes bs s).fwCode = s.fwCode := rfl
@[simp] theorem deliverBytes_fwInfo (bs : List Byte) : (deliverBytes bs s).fwInfo = s.fwInfo := rfl
@[simp] theorem deliverBytes_portByte (bs : List Byte) : (deliverBytes bs s).portByte = s.portByte := rfl
@[simp] theorem deliverBytes_rxq (bs : List Byte) : (deliverBytes bs s).rxq = s.rxq ++ bs.take (s.par.rxqDepth - s.rxq.length) := rfl
@[simp] theorem deliverBytes_txs (bs : List Byte) : (deliverBytes bs s).txs = s.txs := rfl
@[simp] theorem deliverBytes_txFull (bs : List Byte) : (deliverBytes bs s).txFull = s.txFull := rfl
@[simp] theorem deliverBytes_logs (bs : List Byte) : (deliverBytes bs s).logs = s.logs := rfl
@[simp] theorem deliverBytes_resps (bs : List Byte) : (deliverBytes bs s).resps = s.resps := rfl
@[simp] theorem deliverBytes_hostq (bs : List Byte) : (deliverBytes bs s).hostq = s.hostq := rfl
@[simp] theorem deliverBytes_sched (bs : List Byte) : (deliverBytes bs s).sched =
    ((bs.drop (s.par.rxqDepth - s.rxq.length)).map fun b => .link (.deliver b)) ++ s.sched := rfl
@[simp] theorem deliverBytes_fresh (bs : List Byte) : (deliverBytes bs s).fresh = s.fresh := rfl
@[simp] theorem deliverBytes_par (bs : List Byte) : (deliverBytes bs s).par = s.par := rfl

/-! ## `assertReset` -/

@[simp] theorem assertReset_phase : (assertReset s).phase = .idle := rfl
@[simp] theorem assertReset_inFw : (assertReset s).inFw = false := rfl
@[simp] theorem assertReset_fwBegin : (assertReset s).fwBegin = false := rfl
@[simp] theorem assertReset_opLo : (assertReset s).opLo = 0 := rfl
@[simp] theorem assertReset_opHi : (assertReset s).opHi = 0 := rfl
@[simp] theorem assertReset_len : (assertReset s).len = 0 := rfl
@[simp] theorem assertReset_idx : (assertReset s).idx = 0 := rfl
@[simp] theorem assertReset_pb : (assertReset s).pb = Vector.replicate 255 0 := rfl
@[simp] theorem assertReset_cursor : (assertReset s).cursor = 0 := rfl
@[simp] theorem assertReset_rcode : (assertReset s).rcode = 0 := rfl
@[simp] theorem assertReset_rinfo : (assertReset s).rinfo = 0 := rfl
@[simp] theorem assertReset_fwCode : (assertReset s).fwCode = .ok := rfl
@[simp] theorem assertReset_fwInfo : (assertReset s).fwInfo = 0 := rfl
@[simp] theorem assertReset_portByte : (assertReset s).portByte = 0 := rfl
@[simp] theorem assertReset_rxq : (assertReset s).rxq = (Config.staleRx s.fresh).take s.par.rxqDepth := rfl
@[simp] theorem assertReset_txs : (assertReset s).txs = [] := rfl
@[simp] theorem assertReset_txFull : (assertReset s).txFull = s.txFull := rfl
@[simp] theorem assertReset_logs : (assertReset s).logs = [] := rfl
@[simp] theorem assertReset_resps : (assertReset s).resps = s.resps := rfl
@[simp] theorem assertReset_hostq : (assertReset s).hostq = s.hostq := rfl
@[simp] theorem assertReset_sched : (assertReset s).sched = s.sched := rfl
@[simp] theorem assertReset_fresh : (assertReset s).fresh = s.fresh + 1 := rfl
@[simp] theorem assertReset_par : (assertReset s).par = s.par := rfl

end Sys2Proof.Machine
end

