-- ==== Sys2Proof/Laws/Ops.lean ====
section
/-! SUPPORT. One lemma for each shared operation, saying all it can do: admitting and answering a request, one byte sent
or received, issuing and ending a command, the payload buffer, the tiling of an image. -/

namespace Sys2Proof.Machine

variable {s t : State}

/-! ## Operand assembly -/

/-- `{ogf[5:0], ocf[9:0]}` as a number (R80). -/
theorem toNat_composeOpcode (g : BitVec 6) (c : BitVec 10) :
    (composeOpcode g c).toNat = g.toNat * 1024 + c.toNat := by
  have hg := g.isLt
  have hc := c.isLt
  change ((g.setWidth 16 <<< 10) ||| c.setWidth 16).toNat = _
  rw [BitVec.toNat_or, BitVec.toNat_shiftLeft, BitVec.toNat_setWidth, BitVec.toNat_setWidth,
    Nat.shiftLeft_eq, Nat.mod_eq_of_lt (by omega : g.toNat < 2 ^ 16), Nat.mod_eq_of_lt (by omega),
    Nat.mod_eq_of_lt (by omega), mul_comm, ← Nat.two_pow_add_eq_or_of_lt hc]

/-- `OVF` exactly where the exact quotient does not fit (R123). -/
theorem tickOverflow_eq_false {mul : Nat} {ms : Word16} : tickOverflow mul ms = false ↔ ms.toNat * mul / 5 < 65536 :=
  decide_eq_false_iff_not.trans Nat.not_le

/-- The count is the exact quotient where it fits (R121, R122). -/
theorem toNat_tickCount {mul : Nat} {ms : Word16} (h : ms.toNat * mul / 5 < 65536) :
    (tickCount mul ms).toNat = ms.toNat * mul / 5 := by
  have hq : tickQuotient mul ms < 2 ^ Config.ticksBits := h
  rw [tickCount, if_pos hq]
  exact Nat.mod_eq_of_lt h

/-- A connection count always fits (R122, R123). -/
theorem connection_fits (ms : Word16) : ms.toNat * 4 / 5 < 65536 := by
  have := ms.isLt
  omega

/-! ## The host port -/

theorem busy_eq_false : s.busy = false ↔ s.phase = .idle := by simp [State.busy]

theorem busy_eq_true : s.busy = true ↔ s.phase ≠ .idle := by simp [State.busy]

/-- An idle SPE admits the request. -/
theorem ifIdle_idle (h : s.phase = .idle) (f : State → Result) : ifIdle s f = f s := by
  simp [ifIdle, busy_eq_false.2 h]

/-- A busy SPE refuses it. -/
theorem ifIdle_busy (h : s.busy = true) (f : State → Result) : ifIdle s f = .refused .busy := by simp [ifIdle, h]

/-- Where an admitted request answers a next state, the SPE was idle. -/
theorem ifIdle_next {f : State → Result} (h : ifIdle s f = .next t) : s.phase = .idle ∧ f s = .next t := by
  cases hb : s.busy
  · exact ⟨busy_eq_false.1 hb, by simpa [ifIdle, hb] using h⟩
  · simp [ifIdle, hb] at h

/-- A pure operation only answers. -/
theorem answer_idle (h : s.phase = .idle) (r : Response) : answer r s = .next (respond r s) := by
  simp [answer, ifIdle_idle h]

/-! ## One byte -/

theorem txByte_full (h : s.txFull = true) (b : Byte) (k : State → State) : txByte b k s = .next s := by
  simp [txByte, h]

theorem txByte_free (h : s.txFull = false) (b : Byte) (k : State → State) :
    txByte b k s = .next (k { s with txs := s.txs ++ [b] }) := by
  simp [txByte, h]

theorem rxWait_empty (h : s.rxq = []) (k : Byte → State → State) : rxWait k s = .next s := by simp [rxWait, h]

theorem rxWait_cons {b : Byte} {q : List Byte} (h : s.rxq = b :: q) (k : Byte → State → State) :
    rxWait k s = .next (k b { s with rxq := q }) := by
  simp [rxWait, h]

/-- All a send step can do. -/
theorem txByte_next {b : Byte} {k : State → State} (h : txByte b k s = .next t) :
    t = s ∨ (s.txFull = false ∧ t = k { s with txs := s.txs ++ [b] }) := by
  cases hf : s.txFull
  · exact .inr ⟨rfl, by simpa [txByte, hf] using h.symm⟩
  · exact .inl (by simpa [txByte, hf] using h.symm)

/-- All a receive step can do. -/
theorem rxWait_next {k : Byte → State → State} (h : rxWait k s = .next t) :
    t = s ∨ ∃ b q, s.rxq = b :: q ∧ t = k b { s with rxq := q } := by
  cases hq : s.rxq with
  | nil => exact .inl (by simpa [rxWait, hq] using h.symm)
  | cons b q => exact .inr ⟨b, q, rfl, by simpa [rxWait, hq] using h.symm⟩

/-! ## Issuing a command -/

theorem issueIfFits_ok {p : List Byte} (h : p.length ≤ 255) (l hi : Byte) :
    issueIfFits l hi p s = .next (issueCommand l hi p s) := by
  simp [issueIfFits, Config.payloadMax, h]

theorem issueIfFits_next {p : List Byte} {l hi : Byte} (h : issueIfFits l hi p s = .next t) :
    p.length ≤ 255 ∧ t = issueCommand l hi p s := by
  unfold issueIfFits at h
  split at h
  · exact ⟨‹_›, by simpa using h.symm⟩
  · cases h

/-- The payload buffer holds the payload (R26). -/
theorem loadPayload_getElem (p : List Byte) (k i : Nat) (h : i < p.length) (h' : i < 255) :
    (loadPayload p k)[i] = p[i] := by
  simp [loadPayload, h]

/-! ## Ending a command -/

theorem toBits_injective {a b : ResultCode} (h : a.toBits = b.toBits) : a = b := by
  revert h
  cases a <;> cases b <;> decide

theorem toBits_le (c : ResultCode) : c.toBits.toNat ≤ Config.nFail := by cases c <;> decide

theorem returnOk_outside (h : s.inFw = false) : returnOk s = finish .ok 0 s := by simp [returnOk, h]

theorem returnOk_inside (h : s.inFw = true) : returnOk s = advanceLoad s := by simp [returnOk, h]

theorem raiseFail_outside (h : s.inFw = false) (c : ResultCode) (i : Byte) :
    raiseFail c i s = finish c i s := by
  simp [raiseFail, h]

theorem raiseFail_inside (h : s.inFw = true) (c : ResultCode) (i : Byte) :
    raiseFail c i s = abortLoad c i s := by
  simp [raiseFail, h]

theorem require_pass {b : Bool} (h : b = true) (p : Phase) (c : ResultCode) : require b p c s = goto p s := by
  simp [require, h]

theorem require_fail {b : Bool} (h : b = false) (p : Phase) (c : ResultCode) :
    require b p c s = raiseFail c 0 s := by
  simp [require, h]

/-! ## What the receipt of a byte can do -/

/-- All that the check of one received byte can do (R93 to R104): go on to another phase of the answer, end the command
with `Ok` from a last phase, or fail, with the status logged where it is carried. -/
theorem onEventByte_cases {p : Phase} (hp : p.receivesEvent = true) (b : Byte) :
    (∃ p', p'.receivesEvent = true ∧ onEventByte p b s = goto p' s) ∨
      onEventByte p b s = returnOk s ∨
      (∃ c, c ≠ .ok ∧ c ≠ .deviceReportedError ∧ onEventByte p b s = raiseFail c 0 s) ∨
      (b ≠ 0 ∧ onEventByte p b s = raiseFail .deviceReportedError b (log (.deviceStatus b) s)) := by
  cases p <;> simp only [Phase.receivesEvent, Bool.false_eq_true] at hp <;>
    simp only [onEventByte, require, requireLast, onEventCode, onStatusByte] <;> split
  case rxCode.isFalse =>
    split
    · exact .inl ⟨.cLen, rfl, rfl⟩
    · exact .inr (.inr (.inl ⟨_, by simp, by simp, rfl⟩))
  case sStatus.isFalse h => exact .inr (.inr (.inr ⟨h, rfl⟩))
  all_goals first
    | exact .inl ⟨_, rfl, rfl⟩
    | exact .inr (.inl rfl)
    | exact .inr (.inr (.inl ⟨_, by simp, by simp, rfl⟩))

/-! ## Tiling (R133) -/

theorem tiledFrom_le {p : Params} {fuel c : Nat} (h : p.tiledFrom fuel c = true) : c ≤ p.fwSize := by
  cases fuel with
  | zero => simp [Params.tiledFrom] at h; omega
  | succ n =>
    unfold Params.tiledFrom at h
    split_ifs at h
    · omega
    · rename_i h2
      simp only [Config.recHeader] at h2
      omega

/-- Where records tile the image from `c` and one remains, it lies inside the image and records tile the rest. -/
theorem tiledFrom_next {p : Params} {fuel c : Nat} (h : p.tiledFrom fuel c = true) (hc : c < p.fwSize) :
    ∃ fuel', p.tiledFrom fuel' (c + Config.recHeader + (p.img.read (c + 2)).toNat) = true := by
  cases fuel with
  | zero => simp [Params.tiledFrom] at h; omega
  | succ n =>
    unfold Params.tiledFrom at h
    split_ifs at h
    · omega
    · exact ⟨n, h⟩

end Sys2Proof.Machine
end

