-- ==== Sys2Proof/Laws/Clients.lean ====
section
/-! SUPPORT. What is fixed of the client sequences whatever the open parameters are: every instruction of every sequence
can be expressed (R61), and a payload holds each of its pieces whole (R142 to R151). -/

namespace Sys2Proof.Machine.Client

/-! ## Fields and payloads -/

@[simp] theorem length_bytesOf (w : Nat) (f : Nat → Byte) : (bytesOf w f).length = w := by simp [bytesOf]

@[simp] theorem length_field (c : Config.ClientCmd) (f : Config.ClientField) (v : Nat) :
    (field c f v).length = fieldWidth c f := length_bytesOf _ _

/-- The open fields of a command leave room for the bytes whose number is given. -/
theorem fieldWidth_sum (c : Config.ClientCmd) :
    ((openFields c).map (fieldWidth c)).sum + givenBytes c ≤ Config.payloadMax := by
  by_cases h : ((openFields c).map (Config.clientFieldWidth c)).sum + givenBytes c ≤ Config.payloadMax
  · have : fieldWidth c = Config.clientFieldWidth c := funext fun f => if_pos h
    rwa [this]
  · have : fieldWidth c = fun _ => 0 := funext fun f => if_neg h
    rw [this]
    cases c <;> simp [openFields, givenBytes, Config.payloadMax, Config.bdaddrLen, Config.advDataLen]

/-- A payload holds each piece whole. -/
theorem piece_in_payload {n : Nat} (c : Config.ClientCmd) (pieces : Vector (List Byte) n) (i : Fin n) :
    pieces[i] <:+: payload c pieces := by
  have hm : gap c ((Config.clientOrder c n).symm i) ++ pieces[i] ∈
      List.ofFn fun j : Fin n => gap c j ++ pieces[Config.clientOrder c n j] :=
    (List.mem_ofFn' _ _).2 ⟨(Config.clientOrder c n).symm i, by simp⟩
  obtain ⟨l, r, hl⟩ := List.append_of_mem hm
  refine ⟨l.flatten ++ gap c ((Config.clientOrder c n).symm i), r.flatten ++ gap c n, ?_⟩
  rw [payload, hl]
  simp

/-- The bytes of a payload are those of its pieces and its gaps, in whatever order. -/
theorem length_payload {n : Nat} (c : Config.ClientCmd) (pieces : Vector (List Byte) n) :
    (payload c pieces).length =
      (∑ i : Fin n, pieces[i].length) + ∑ i ∈ Finset.range (n + 1), (gap c i).length := by
  have h : (List.ofFn fun i : Fin n => gap c i ++ pieces[Config.clientOrder c n i]).flatten.length =
      ∑ i : Fin n, ((gap c i).length + pieces[Config.clientOrder c n i].length) := by
    simp [List.length_flatten, List.map_ofFn, List.sum_ofFn, Function.comp_def]
  rw [payload, List.length_append, h, Finset.sum_add_distrib,
    Equiv.sum_comp (Config.clientOrder c n) fun i => pieces[i].length, Finset.sum_range_succ, Finset.sum_range]
  omega

theorem length_gap (c : Config.ClientCmd) (i : Nat) :
    (gap c i).length = if .gap i ∈ openFields c then fieldWidth c (.gap i) else 0 := by
  unfold gap
  split <;> simp

@[simp] theorem length_tickLo (mul : Nat) (ms : Word16) : (tickLo mul ms).length = 1 := rfl
@[simp] theorem length_tickHi (mul : Nat) (ms : Word16) : (tickHi mul ms).length = 1 := rfl

theorem length_advBody : advBody.length ≤ Config.advDataLen := by
  have h : ∀ p, (advPart p).length =
      if (advParts.map Config.advPartWidth).sum + 2 ≤ Config.advDataLen then Config.advPartWidth p else 0 :=
    fun p => length_bytesOf _ _
  simp only [advBody, List.length_append, h, Vector.length_toList]
  split
  · rename_i hs
    simp only [advParts, List.map_cons, List.map_nil, List.sum_cons, List.sum_nil] at hs
    omega
  · decide

/-- `ADV_DATA` has 31 bytes (R150). -/
theorem length_advData : advData.length = Config.advDataLen := by
  have := length_advBody
  simp only [advData, List.length_append, List.length_replicate]
  omega

/-! ## Every instruction of every sequence can be expressed (R61) -/

/-- Every instruction of a list can be expressed. -/
def Expressible (l : List Instr) : Prop := ∀ i ∈ l, i.wellFormed = true

theorem expressible_append {l m : List Instr} (hl : Expressible l) (hm : Expressible m) : Expressible (l ++ m) := by
  intro i hi
  rcases List.mem_append.1 hi with h | h
  · exact hl i h
  · exact hm i h

theorem expressible_cmd {ogf : BitVec 6} {ocf : BitVec 10} {p : List Byte} (h : p.length ≤ 255) :
    Expressible (cmd ogf ocf p) := by
  simp [Expressible, cmd, Instr.wellFormed, payloadFits_iff, h]

theorem setBdAddr_expressible (a : Vector Byte 6) : Expressible (setBdAddr a) := by
  refine expressible_append (l := [_]) (by simp [Expressible, Instr.wellFormed]) (expressible_cmd ?_)
  have := fieldWidth_sum .setBdAddr
  simp [openFields, givenBytes, Config.payloadMax, Config.bdaddrLen] at this
  simp [length_payload, length_gap, openFields, Config.bdaddrLen, Finset.sum_range_succ]
  omega

theorem setBaudRate_expressible (rate : Nat) : Expressible (setBaudRate rate) := by
  refine expressible_cmd ?_
  split
  · decide
  · have := (Config.baudRateLen rate).isLt
    simp at this ⊢
    omega

theorem setLeEventMask_expressible (mask : Nat) : Expressible (setLeEventMask mask) := by
  refine expressible_cmd ?_
  have := fieldWidth_sum .setLeEventMask
  simp [openFields, givenBytes, Config.payloadMax] at this
  simp [length_payload, length_gap, openFields]
  omega

theorem setScanEnable_expressible (e : Bool) (f : Nat) : Expressible (setScanEnable e f) := by
  refine expressible_cmd ?_
  have := fieldWidth_sum .setScanEnable
  simp [openFields, givenBytes, Config.payloadMax] at this
  simp [length_payload, length_gap, openFields, Fin.sum_univ_succ]
  omega

theorem setAdvertiseEnable_expressible (e : Bool) : Expressible (setAdvertiseEnable e) := by
  refine expressible_cmd ?_
  have := fieldWidth_sum .setAdvertiseEnable
  simp [openFields, givenBytes, Config.payloadMax] at this
  simp [length_payload, length_gap, openFields]
  omega

theorem setAdvertiseData_expressible : Expressible setAdvertiseData := by
  refine expressible_cmd ?_
  have := fieldWidth_sum .setAdvertiseData
  simp [openFields, givenBytes, Config.payloadMax, Config.advDataLen] at this
  simp [length_payload, length_gap, openFields, length_advData, Config.advDataLen]
  omega

theorem setScanParameters_expressible {type own filter : Nat} {ms1 ms2 : Word16} {l : List Instr}
    (h : setScanParameters type ms1 ms2 own filter = some l) : Expressible l := by
  unfold setScanParameters intervalCmd at h
  split at h
  · cases h
    refine expressible_append (by simp [Expressible, Instr.wellFormed]) (expressible_cmd ?_)
    have := fieldWidth_sum .setScanParameters
    simp [openFields, givenBytes, Config.payloadMax] at this
    simp [length_payload, length_gap, openFields, Fin.sum_univ_succ]
    omega
  · cases h

theorem seven_and_two (a b c d e f g h i : List Byte) :
    #v[a, b, c, d, e, f, g] ++ #v[h, i] = #v[a, b, c, d, e, f, g, h, i] := rfl

theorem setAdvertiseParameters_expressible {type own filter : Nat} {ms1 ms2 : Word16} {l : List Instr}
    (h : setAdvertiseParameters type ms1 ms2 own filter = some l) : Expressible l := by
  unfold setAdvertiseParameters intervalCmd at h
  split at h
  · cases h
    refine expressible_append (by simp [Expressible, Instr.wellFormed]) (expressible_cmd ?_)
    rw [seven_and_two]
    have := fieldWidth_sum .setAdvertiseParameters
    simp [openFields, givenBytes, Config.payloadMax] at this
    simp [length_payload, length_gap, openFields, Fin.sum_univ_succ]
    omega
  · cases h

theorem createConnection_expressible {peer : Vector Byte 6} {si sw cmin cmax : Word16} {own filter : Nat}
    {l : List Instr} (h : createConnection peer si sw own filter cmin cmax = some l) : Expressible l := by
  unfold createConnection at h
  split at h
  · cases h
    refine expressible_append (by simp [Expressible, Instr.wellFormed]) (expressible_cmd ?_)
    have := fieldWidth_sum .createConnection
    simp [openFields, givenBytes, Config.payloadMax, Config.bdaddrLen] at this
    simp [length_payload, length_gap, openFields, Config.bdaddrLen, Fin.sum_univ_succ, Finset.sum_range_succ]
    omega
  · cases h

/-- The wrappers' own times convert (R152), so their sequences are there. -/
theorem wrappers_exist : startActiveScanning.isSome = true ∧ startActiveAdvertising.isSome = true := by
  refine ⟨?_, ?_⟩
  · simp only [startActiveScanning, setScanParameters, intervalCmd, Option.isSome_map]
    rw [if_pos (by decide)]
    rfl
  · simp only [startActiveAdvertising, setAdvertiseParameters, intervalCmd]
    rw [if_pos (by decide)]
    rfl

/-! ## The ACL helper (R153) -/

/-- `sendSubscribe` sends exactly the bytes of a frame that can be expressed (R66). -/
theorem sendSubscribe_bytes (h : Nat) :
    let frame : Instr := .frameAcl (aclHandle h) aclTotalLen aclL2capLen Config.gattWrite.toList
    frame.wellFormed = true ∧ sendSubscribe h = (encode frame).map .wrbyte := by
  simp [Instr.wellFormed, aclHandle, aclTotalLen, aclL2capLen, sendSubscribe, encode]

end Sys2Proof.Machine.Client
end

