-- ==== Sys2Proof/Laws/Step.lean ====
section
/-! SUPPORT. One step by what the schedule says, and runs. -/

namespace Sys2Proof.Machine

variable {s t : State}

theorem step_nil (h : s.sched = []) : step s = cooperate s := by simp [step, h]

theorem step_spe {ts : List Turn} (h : s.sched = .spe :: ts) : step s = speStep { s with sched := ts } := by
  simp [step, h]

theorem step_host {ts : List Turn} (h : s.sched = .host :: ts) : step s = hostTurn { s with sched := ts } := by
  simp [step, h]

theorem step_link {m : LinkMove} {ts : List Turn} (h : s.sched = .link m :: ts) : step s = linkTurn m ts s := by
  simp [step, h]

theorem step_rst {ts : List Turn} (h : s.sched = .rst :: ts) :
    step s = .next (assertReset { s with sched := ts }) := by
  simp [step, h]

theorem cooperate_busy (h : s.phase ≠ .idle) : cooperate s = speStep s := by
  simp [cooperate, busy_eq_true.2 h]

theorem cooperate_idle (h : s.phase = .idle) : cooperate s = hostTurn s := by
  simp [cooperate, busy_eq_false.2 h]

/-- A delivery that finds no room is no move: the host or the SPE moves, and the delivery stays (log entry 4). -/
theorem step_deliver_full {b : Byte} {ts : List Turn} (h : s.sched = .link (.deliver b) :: ts)
    (hq : s.par.rxqDepth ≤ s.rxq.length) : step s = cooperate s := by
  rw [step_link h]
  exact if_neg (Nat.not_lt.2 hq)

/-- With nothing scheduled, a busy SPE steps. -/
theorem step_quiet (h : s.sched = []) (hp : s.phase ≠ .idle) : step s = speStep s := by
  rw [step_nil h, cooperate_busy hp]

theorem speStep_receives (h : s.phase.receivesEvent = true) : speStep s = rxWait (onEventByte s.phase) s := by
  unfold speStep
  cases hp : s.phase <;> simp_all [Phase.receivesEvent]

@[simp] theorem run_zero : run 0 s = .next s := rfl

theorem run_succ (h : step s = .next t) (k : Nat) : run (k + 1) s = run k t := by simp [run, h]

/-- A run of at least one step starts with a step. -/
theorem run_succ_next {k : Nat} (h : run (k + 1) s = .next t) : ∃ u, step s = .next u ∧ run k u = .next t := by
  simp only [run] at h
  split at h
  · exact ⟨_, ‹_›, h⟩
  · cases h
  · cases h

/-- Runs compose. -/
theorem run_add {m : Nat} (h : run m s = .next t) (k : Nat) : run (m + k) s = run k t := by
  induction m generalizing s with
  | zero =>
    rw [run_zero, Host.Outcome.next.injEq] at h
    rw [Nat.zero_add, h]
  | succ m ih =>
    obtain ⟨u, hu, hr⟩ := run_succ_next h
    rw [Nat.succ_add, run_succ hu, ih hr]

end Sys2Proof.Machine
end

