-- ==== Sys2Proof/Laws/Moves.lean ====
section
/-! SUPPORT. All that a step can do, said once: `Move s t` lists the moves of the SPE, the host and the link, and
`step_move` says that every step, reset apart, is one of them. -/

namespace Sys2Proof.Machine

/-- The moves of the SPE, the host and the link, the schedule and the host's list apart. The link's flag is not among
them: `step_move` names its move. -/
inductive Move (s : State) : State → Prop where
  /-- An agent holds (R193), or has nothing to do. -/
  | hold : Move s s
  /-- A pure operation or `RXRDY` answers (R28, R74). -/
  | answer (r : Response) (hp : s.phase = .idle) : Move s (respond r s)
  /-- `RDBYTE` (R75). -/
  | readByte (b : Byte) (q : List Byte) (hp : s.phase = .idle) (hq : s.rxq = b :: q) :
      Move s (respond (.byte b) { s with rxq := q })
  /-- `WAITRD` or `FLUSH` is issued (R72, R76). -/
  | startWait (p : Phase) (hp : s.phase = .idle) (h : p = .tWaitrd ∨ p = .tFlush) : Move s (goto p s)
  /-- `WRBYTE` is issued (R73), or the first one of a `FRAME.ACL` (R153). -/
  | startSend (b : Byte) (q : List HostItem) (hp : s.phase = .idle) :
      Move s (goto .tWrbyte { s with portByte := b, hostq := q })
  /-- `SENDCMD` is issued (R91). -/
  | startCommand (l h : Byte) (p : List Byte) (hp : s.phase = .idle) (hl : p.length ≤ 255) :
      Move s (issueCommand l h p s)
  /-- `LOADFW` is issued (R130). -/
  | startLoad (l h : Byte) (hp : s.phase = .idle) (hw : s.par.imageWellFormed = true) :
      Move s (issueCommand l h [] { s with inFw := true, fwBegin := true })
  /-- The record at the cursor is issued (R131). -/
  | startRecord (p : List Byte) (hp : s.phase = .fwNext) (hc : s.cursor.toNat < s.par.fwSize) (hl : p.length ≤ 255)
      (hn : lenByte p = s.par.img.read (s.cursor.toNat + 2)) :
      Move s (issueCommand (s.par.img.read s.cursor.toNat) (s.par.img.read (s.cursor.toNat + 1)) p s)
  /-- No record remains (R130). -/
  | noRecord (hp : s.phase = .fwNext) (hc : s.par.fwSize ≤ s.cursor.toNat) : Move s (goto .fwSettle s)
  /-- The settle delay ends (R134). -/
  | settle (hp : s.phase = .fwSettle) : Move s (endLoad s)
  /-- One byte of the frame's header is sent (R92). -/
  | sendHeader (b : Byte) (p : Phase) (hp : s.phase.sendsHeader = true) (hf : s.txFull = false)
      (h : p.sendsHeader = true ∨ p = .rxType ∨ (p = .txPayload ∧ 0 < s.len.toNat)) :
      Move s (goto p { s with txs := s.txs ++ [b] })
  /-- One payload byte is sent (R92). -/
  | sendPayload (hi : s.idx.toNat < 255) (hp : s.phase = .txPayload) (hf : s.txFull = false) :
      Move s (afterPayloadByte { s with txs := s.txs ++ [s.pb[s.idx.toNat]] })
  /-- One byte of the answer is received and checked (R93 to R104). -/
  | receive (b : Byte) (q : List Byte) (hp : s.phase.receivesEvent = true) (hq : s.rxq = b :: q) :
      Move s (onEventByte s.phase b { s with rxq := q })
  /-- `WAITRD` ends (R72). -/
  | waited (b : Byte) (q : List Byte) (hp : s.phase = .tWaitrd) (hq : s.rxq = b :: q) :
      Move s (respond (.byte b) (goto .idle { s with rxq := q }))
  /-- `WRBYTE` ends (R73). -/
  | sent (hp : s.phase = .tWrbyte) (hf : s.txFull = false) :
      Move s (respond .done (goto .idle { s with txs := s.txs ++ [s.portByte] }))
  /-- `FLUSH` discards a byte (R76). -/
  | discard (b : Byte) (q : List Byte) (hp : s.phase = .tFlush) (hq : s.rxq = b :: q) : Move s { s with rxq := q }
  /-- `FLUSH` ends (R76). -/
  | flushed (hp : s.phase = .tFlush) (hq : s.rxq = []) : Move s (respond .done (goto .idle s))
  /-- The link delivers bytes (R199). -/
  | deliver (bs : List Byte) : Move s (deliverBytes bs s)

variable {s t : State}

/-! ## What is decoded -/

/-- The image holds records only. -/
theorem decodeRecord_ok {bs rest : List Byte} {i : Instr} (h : decodeRecord bs = .ok (i, rest)) :
    ∃ l hi p r, bs = l :: hi :: lenByte p :: r ∧ p.length ≤ 255 ∧ i = .frameFwrec l hi p := by
  match bs with
  | [] | [_] | [_, _] => cases h
  | l :: hi :: n :: r =>
    simp only [decodeRecord, takePayload] at h
    have hn := n.isLt
    split at h
    · rename_i hl
      cases h
      refine ⟨l, hi, r.take n.toNat, r, ?_, by omega, rfl⟩
      have : lenByte (r.take n.toNat) = n := BitVec.eq_of_toNat_eq (by rw [toNat_lenByte (by omega), hl])
      rw [this]
    · cases h

/-- The receive direction holds event frames only. -/
theorem decodeRxFrame_ok {bs rest : List Byte} {i : Instr} (h : decodeRxFrame bs = .ok (i, rest)) :
    i.space = .rxWire := by
  unfold decodeRxFrame at h
  split at h
  · split_ifs at h <;> cases h <;> rfl
  · cases h

/-- What the host may ask for: requests and frames for the chip. -/
theorem decodeItem_ok {item : HostItem} {rest : List Byte} {i : Instr} (h : decodeItem item = .ok (i, rest)) :
    i.space = .request ∨ i.space = .txWire := by
  cases item with
  | request bs =>
    simp only [decodeItem, decode] at h
    unfold decodeRequest at h
    left
    repeat' split at h
    all_goals first
      | (cases h; done)
      | (cases h; rfl)
      | (simp only [takePayload] at h; split at h <;> cases h; rfl)
  | frame bs =>
    simp only [decodeItem, decode] at h
    unfold decodeTxFrame at h
    right
    repeat' split at h
    all_goals first
      | cases h
      | (simp only [takePayload] at h; split at h <;> cases h; rfl)
      | (simp only [decodeAcl] at h; split_ifs at h; cases h; rfl)

/-! ## What an instruction can do -/

theorem answer_move {r : Response} (h : answer r s = .next t) : Move s t := by
  obtain ⟨hp, h⟩ := ifIdle_next h
  cases h
  exact .answer r hp

/-- A request or a frame for the chip (R60, R63, R66). -/
theorem exec_host_move {i : Instr} (hi : i.space = .request ∨ i.space = .txWire) (h : exec i s = .next t) :
    Move s t := by
  cases i <;> simp only [Instr.space, reduceCtorEq, or_self, or_false, false_or] at hi <;> simp only [exec] at h
  case rxrdy => exact answer_move h
  case mkop => exact answer_move h
  case lo => exact answer_move h
  case hi => exact answer_move h
  case join => exact answer_move h
  case swap6 => exact answer_move h
  case ms2tS => exact answer_move h
  case ms2tC => exact answer_move h
  case rdbyte =>
    obtain ⟨hp, h⟩ := ifIdle_next h
    split at h
    · cases h
    · cases h
      exact .readByte _ _ hp ‹_›
  case waitrd =>
    obtain ⟨hp, h⟩ := ifIdle_next h
    cases h
    exact .startWait _ hp (.inl rfl)
  case flush =>
    obtain ⟨hp, h⟩ := ifIdle_next h
    cases h
    exact .startWait _ hp (.inr rfl)
  case wrbyte b =>
    obtain ⟨hp, h⟩ := ifIdle_next h
    cases h
    exact .startSend b s.hostq hp
  case sendcmd opcode p =>
    obtain ⟨hp, h⟩ := ifIdle_next h
    obtain ⟨hl, rfl⟩ := issueIfFits_next h
    exact .startCommand _ _ p hp hl
  case frameCmd opcode p =>
    obtain ⟨hp, h⟩ := ifIdle_next h
    obtain ⟨hl, rfl⟩ := issueIfFits_next h
    exact .startCommand _ _ p hp hl
  case loadfw =>
    obtain ⟨hp, h⟩ := ifIdle_next h
    split at h
    · cases h
      exact .startLoad _ _ hp ‹_›
    · cases h
  case reservedE => cases h
  case reservedF => cases h
  case frameAcl =>
    unfold execFrameAcl execWrbyte at h
    obtain ⟨hp, h⟩ := ifIdle_next h
    cases h
    exact .startSend _ _ hp

/-- An event frame (R64). -/
theorem exec_link_move {i : Instr} (hi : i.space = .rxWire) (h : exec i s = .next t) : Move s t := by
  cases i <;> simp only [Instr.space, reduceCtorEq] at hi <;> simp only [exec] at h
  all_goals
    cases h
    exact .deliver _

/-! ## What an agent can do -/

theorem memRead_some {p : Params} {a n : Nat} {bs : List Byte} (h : p.memRead a n = some bs) :
    bs = (List.range n).map fun i => p.img.read (a + i) := by
  unfold Params.memRead at h
  split at h
  · exact (Option.some.inj h).symm
  · cases h

/-- The record at the cursor, by its bytes in the image (R131). -/
theorem fetchRecord_decode {p : Params} {c : Nat} {bs rest : List Byte} {i : Instr}
    (h : fetchRecord p c = some bs) (hd : decodeRecord bs = .ok (i, rest)) :
    ∃ pl, pl.length ≤ 255 ∧ lenByte pl = p.img.read (c + 2) ∧
      i = .frameFwrec (p.img.read c) (p.img.read (c + 1)) pl := by
  obtain ⟨l, hi, pl, r, hb, hl, rfl⟩ := decodeRecord_ok hd
  unfold fetchRecord at h
  split at h
  · cases h
  have hm := memRead_some h
  rw [show Config.recHeader + (p.img.read (c + 2)).toNat = (p.img.read (c + 2)).toNat + 1 + 1 + 1 by
    simp only [Config.recHeader]; omega] at hm
  rw [hb] at hm
  simp only [List.range_succ_eq_map, List.map_cons, List.map_map, List.cons.injEq] at hm
  exact ⟨pl, hl, hm.2.2.1, by rw [hm.1, hm.2.1]; rfl⟩

theorem nextRecord_move (hp : s.phase = .fwNext) (h : nextRecord s = .next t) : Move s t := by
  unfold nextRecord at h
  split at h
  · rename_i hc
    split at h
    · cases h
    · rename_i bs hf
      split at h
      · rename_i i rest hd
        obtain ⟨pl, hl, hn, rfl⟩ := fetchRecord_decode hf hd
        simp only [exec, execFrameFwrec, hp, if_true] at h
        obtain ⟨-, rfl⟩ := issueIfFits_next h
        exact .startRecord pl hp hc hl hn
      · cases h
  · cases h
    exact .noRecord hp (by omega)

theorem flushByte_move (hp : s.phase = .tFlush) (h : flushByte s = .next t) : Move s t := by
  unfold flushByte at h
  split at h
  · cases h
    exact .flushed hp ‹_›
  · cases h
    exact .discard _ _ hp ‹_›

theorem speStep_move (h : speStep s = .next t) : Move s t := by
  have receive : s.phase.receivesEvent = true → Move s t := fun hp => by
    rw [speStep_receives hp] at h
    obtain rfl | ⟨b, q, hq, rfl⟩ := rxWait_next h
    · exact .hold
    · exact .receive b q hp hq
  have header : ∀ b p, s.phase.sendsHeader = true →
      (p.sendsHeader = true ∨ p = .rxType ∨ (p = .txPayload ∧ 0 < s.len.toNat)) →
      txByte b (goto p) s = .next t → Move s t := fun b p hp h' h => by
    obtain rfl | ⟨hf, rfl⟩ := txByte_next h
    · exact .hold
    · exact .sendHeader b p hp hf h'
  cases hp : s.phase
  case idle =>
    simp only [speStep, hp, Host.Outcome.next.injEq] at h
    exact h ▸ .hold
  case txType =>
    simp only [speStep, hp] at h
    exact header _ _ (by simp [hp, Phase.sendsHeader]) (.inl rfl) h
  case txOpLo =>
    simp only [speStep, hp] at h
    exact header _ _ (by simp [hp, Phase.sendsHeader]) (.inl rfl) h
  case txOpHi =>
    simp only [speStep, hp] at h
    exact header _ _ (by simp [hp, Phase.sendsHeader]) (.inl rfl) h
  case txLen =>
    simp only [speStep, hp] at h
    obtain rfl | ⟨hf, rfl⟩ := txByte_next h
    · exact .hold
    · unfold afterLength
      split
      · exact .sendHeader _ _ (by simp [hp, Phase.sendsHeader]) hf (.inr (.inr ⟨rfl, ‹_›⟩))
      · exact .sendHeader _ _ (by simp [hp, Phase.sendsHeader]) hf (.inr (.inl rfl))
  case txPayload =>
    simp only [speStep, hp, sendPayloadByte] at h
    split at h
    · obtain rfl | ⟨hf, rfl⟩ := txByte_next h
      · exact .hold
      · exact .sendPayload ‹_› hp hf
    · cases h
  case tWaitrd =>
    simp only [speStep, hp] at h
    obtain rfl | ⟨b, q, hq, rfl⟩ := rxWait_next h
    · exact .hold
    · exact .waited b q hp hq
  case tWrbyte =>
    simp only [speStep, hp] at h
    obtain rfl | ⟨hf, rfl⟩ := txByte_next h
    · exact .hold
    · exact .sent hp hf
  case tFlush =>
    simp only [speStep, hp] at h
    exact flushByte_move hp h
  case fwNext =>
    simp only [speStep, hp] at h
    exact nextRecord_move hp h
  case fwSettle =>
    simp only [speStep, hp, Host.Outcome.next.injEq] at h
    exact h ▸ .settle hp
  all_goals exact receive (by rw [hp]; rfl)

theorem hostTurn_move (h : hostTurn s = .next t) : ∃ q, Move { s with hostq := q } t := by
  unfold hostTurn at h
  split at h
  · cases h
    exact ⟨s.hostq, .hold⟩
  · split at h
    · exact ⟨_, exec_host_move (decodeItem_ok ‹_›) h⟩
    · cases h

theorem cooperate_move (h : cooperate s = .next t) : ∃ q, Move { s with hostq := q } t := by
  unfold cooperate at h
  split at h
  · exact ⟨s.hostq, speStep_move h⟩
  · exact hostTurn_move h

/-! ## The schedule -/

theorem answer_sched {r : Response} (h : answer r s = .next t) : t.sched = s.sched := by
  obtain ⟨-, h⟩ := ifIdle_next h
  cases h
  rfl

theorem issueIfFits_sched {l hi : Byte} {p : List Byte} (h : issueIfFits l hi p s = .next t) : t.sched = s.sched := by
  obtain ⟨-, rfl⟩ := issueIfFits_next h
  rfl

/-- Only an event frame touches the schedule. -/
theorem exec_sched {i : Instr} (hi : i.space ≠ .rxWire) (h : exec i s = .next t) : t.sched = s.sched := by
  cases i <;> simp only [exec] at h
  case rxrdy | mkop | lo | hi | join | swap6 | ms2tS | ms2tC => exact answer_sched h
  case rdbyte =>
    obtain ⟨-, h⟩ := ifIdle_next h
    split at h <;> cases h
    rfl
  case waitrd | wrbyte | flush =>
    obtain ⟨-, h⟩ := ifIdle_next h
    cases h
    rfl
  case frameAcl =>
    unfold execFrameAcl execWrbyte at h
    obtain ⟨-, h⟩ := ifIdle_next h
    cases h
    rfl
  case sendcmd | frameCmd => exact issueIfFits_sched (ifIdle_next h).2
  case loadfw =>
    obtain ⟨-, h⟩ := ifIdle_next h
    split at h <;> cases h
    rfl
  case frameFwrec =>
    unfold execFrameFwrec at h
    split at h
    · exact issueIfFits_sched h
    · cases h
  case reservedE | reservedF => cases h
  case frameEvtStatus | frameEvtComplete => exact absurd rfl hi

theorem onEventByte_sched {p : Phase} (hp : p.receivesEvent = true) (b : Byte) :
    (onEventByte p b s).sched = s.sched := by
  obtain ⟨p', -, he⟩ | he | ⟨c, -, -, he⟩ | ⟨-, he⟩ := onEventByte_cases (s := s) hp b <;> rw [he]
  · rfl
  · unfold returnOk
    split <;> rfl
  · unfold raiseFail
    split <;> rfl
  · unfold raiseFail
    split <;> rfl

theorem txByte_sched {b : Byte} {k : State → State} (h : txByte b k s = .next t) (hk : ∀ s, (k s).sched = s.sched) :
    t.sched = s.sched := by
  obtain rfl | ⟨-, rfl⟩ := txByte_next h
  · rfl
  · exact hk _

theorem nextRecord_sched (h : nextRecord s = .next t) : t.sched = s.sched := by
  unfold nextRecord at h
  split at h
  · split at h
    · cases h
    · split at h
      · obtain ⟨_, _, _, _, -, -, rfl⟩ := decodeRecord_ok ‹_›
        exact exec_sched (by simp [Instr.space]) h
      · cases h
  · cases h
    rfl

theorem speStep_sched (h : speStep s = .next t) : t.sched = s.sched := by
  by_cases hp : s.phase.receivesEvent = true
  · rw [speStep_receives hp] at h
    obtain rfl | ⟨b, q, -, rfl⟩ := rxWait_next h
    · rfl
    · exact onEventByte_sched hp b
  · unfold speStep at h
    split at h
    case h_2 | h_3 | h_4 => exact txByte_sched h fun _ => rfl
    case h_5 => exact txByte_sched h fun _ => rfl
    case h_6 =>
      unfold sendPayloadByte at h
      split at h
      · exact txByte_sched h fun _ => rfl
      · cases h
    case h_19 =>
      obtain rfl | ⟨b, q, -, rfl⟩ := rxWait_next h <;> rfl
    case h_20 => exact txByte_sched h fun _ => rfl
    case h_21 =>
      unfold flushByte at h
      split at h <;> cases h <;> rfl
    case h_22 => exact nextRecord_sched h
    case h_1 | h_23 =>
      cases h
      rfl
    all_goals simp_all [Phase.receivesEvent]

theorem hostTurn_sched (h : hostTurn s = .next t) : t.sched = s.sched := by
  unfold hostTurn at h
  split at h
  · cases h
    rfl
  · split at h
    · have hi := decodeItem_ok ‹_›
      exact (exec_sched (by rcases hi with hi | hi <;> simp [hi]) h :)
    · cases h

/-- Where the link makes no move, the schedule stays as it is. -/
theorem cooperate_sched (h : cooperate s = .next t) : t.sched = s.sched := by
  unfold cooperate at h
  split at h
  · exact speStep_sched h
  · exact hostTurn_sched h

/-- A byte that finds room is delivered whole. -/
theorem deliver_one {b : Byte} (h : s.rxq.length < s.par.rxqDepth) (q : List HostItem) (ts : List Turn) :
    Move { s with hostq := q, sched := ts } { s with rxq := s.rxq ++ [b], hostq := q, sched := ts } := by
  have hle : [b].length ≤ s.par.rxqDepth - s.rxq.length := by
    show 1 ≤ _
    omega
  have := Move.deliver (s := { s with hostq := q, sched := ts }) [b]
  simpa only [deliverBytes, List.take_of_length_le hle, List.drop_of_length_le hle, List.map_nil, List.nil_append]
    using this

/-- Every step is a reset, the link's move of `tx_full`, or one of the moves, made after a turn is taken from the
schedule and an item from the host's list. -/
theorem step_move (h : step s = .next t) :
    (∃ ts, s.sched = .rst :: ts ∧ t = assertReset { s with sched := ts }) ∨
      (∃ v ts, s.sched = .link (.txFull v) :: ts ∧ t = { s with txFull := v, sched := ts }) ∨
      ∃ q ts, Move { s with hostq := q, sched := ts } t := by
  unfold step at h
  split at h
  · obtain ⟨q, hm⟩ := cooperate_move h
    exact .inr (.inr ⟨q, s.sched, hm⟩)
  · exact .inr (.inr ⟨s.hostq, _, speStep_move h⟩)
  · obtain ⟨q, hm⟩ := hostTurn_move h
    exact .inr (.inr ⟨q, _, hm⟩)
  · rename_i m ts hsched
    right
    unfold linkTurn at h
    split at h
    · rename_i b
      split at h
      · cases h
        exact .inr ⟨s.hostq, ts, deliver_one ‹_› s.hostq ts⟩
      · obtain ⟨q, hm⟩ := cooperate_move h
        exact .inr ⟨q, s.sched, hm⟩
    · cases h
      exact .inr ⟨s.hostq, ts, .hold⟩
    · rename_i b bs
      split at h
      · cases h
        have hroom : s.rxq.length < s.par.rxqDepth := ‹_›
        exact .inr ⟨s.hostq, _, deliver_one hroom s.hostq _⟩
      · obtain ⟨q, hm⟩ := cooperate_move h
        exact .inr ⟨q, s.sched, hm⟩
    · cases h
      exact .inl ⟨_, ts, hsched, rfl⟩
    · split at h
      · exact .inr ⟨s.hostq, ts, exec_link_move (decodeRxFrame_ok ‹_›) h⟩
      · cases h
        exact .inr ⟨s.hostq, ts, .deliver _⟩
  · cases h
    exact .inl ⟨_, ‹_›, rfl⟩

/-- No move touches the link's flag (R27). -/
theorem Move.txFull (h : Move s t) : t.txFull = s.txFull := by
  cases h
  case receive b q hp hq =>
    obtain ⟨p, -, he⟩ | he | ⟨c, -, -, he⟩ | ⟨-, he⟩ := onEventByte_cases (s := { s with rxq := q }) hp b <;> rw [he]
    · rfl
    · unfold returnOk
      split <;> rfl
    · unfold raiseFail
      split <;> rfl
    · unfold raiseFail
      split <;> rfl
  all_goals rfl

end Sys2Proof.Machine
end

