-- ==== Sys2Proof/Laws/Launch.lean ====
section
/-! SUPPORT. The launch premises of R200: which of them hold of which states. -/

namespace Sys2Proof.Machine

variable {s t : State}

/-- `ResetState` holds of the launch state, for parameters in range. -/
theorem resetWith_isLaunch {p : Params} (h : p.wf) : (State.resetWith p).isLaunch :=
  ⟨h, rfl, rfl, rfl, by simp [State.resetWith], rfl, rfl⟩

/-- `ResetState` holds after `rst`, whatever requests and turns are pending. -/
theorem assertReset_isLaunch (h : s.par.wf) : (assertReset s).isLaunch :=
  ⟨h, rfl, rfl, rfl, by simp, rfl, rfl⟩

/-- `LinkSetUp` holds of every state of this model (log entry 19). -/
theorem linkSetUp_always (s : State) : s.linkSetUp := by
  cases h : s.rxq <;> simp [State.linkSetUp, State.rxReady, h]

/-- With nothing scheduled, a step leaves nothing scheduled. -/
theorem step_stays_quiet (h : s.sched = []) (hs : step s = .next t) : t.sched = [] := by
  rw [step_nil h] at hs
  rw [cooperate_sched hs, h]

theorem run_stays_quiet {k : Nat} (h : s.sched = []) (hr : run k s = .next t) : t.sched = [] := by
  induction k generalizing s with
  | zero =>
    cases hr
    exact h
  | succ k ih =>
    obtain ⟨u, hu, hr⟩ := run_succ_next hr
    exact ih (step_stays_quiet h hu) hr

/-- A link with nothing scheduled is `Quiet`. -/
theorem quiet_of_nothing_scheduled (h : s.sched = []) : s.quiet := by
  rintro k t hr ⟨m, ts, hm, -⟩
  rw [run_stays_quiet h hr] at hm
  cases hm

/-- `ResetState` gives none of the other premises: there is a launch state that is not `Flushed`, whose image is not
well-formed, and whose link is not `Quiet`. -/
theorem isLaunch_gives_no_other_premise :
    ∃ s : State, s.isLaunch ∧ ¬s.flushed ∧ ¬s.imageInPlace ∧ ¬s.quiet := by
  let p : Params := { rxqDepth := 2, fwBeginOpcode := 0, fwSize := 1, img := [] }
  refine ⟨{ State.resetWith p with rxq := [0x55], sched := [.link (.deliver 0x55)] },
    ⟨⟨by decide, by decide, rfl⟩, rfl, rfl, rfl, by decide, rfl, rfl⟩, by simp [State.flushed],
    fun h => absurd h.2 (by decide), fun h => ?_⟩
  exact absurd (h 0 _ rfl ⟨_, _, rfl, .inl ⟨_, rfl⟩⟩) (by decide)

end Sys2Proof.Machine
end

