-- ==== Sys2Proof/Laws/Memory.lean ====
section
/-! SUPPORT. The image space: read after write, and every memory operation keeps the canonical form. -/

namespace Sys2Proof.Machine

@[simp] theorem Memory.read_nil (k : Nat) : Memory.read [] k = Memory.unlisted := rfl

@[simp] theorem Memory.read_cons (a : Nat) (b : Byte) (m : Memory) (k : Nat) :
    Memory.read ((a, b) :: m) k = if k = a then b else Memory.read m k := rfl

@[simp] theorem Memory.wf_nil : Memory.wf [] = true := rfl

theorem Memory.wfAbove_cons {lo : Option Nat} {a : Nat} {b : Byte} {m : Memory} :
    Memory.wfAbove lo ((a, b) :: m) = true ↔
      (∀ l, lo = some l → l < a) ∧ b ≠ Memory.unlisted ∧ Memory.wfAbove (some a) m = true := by
  cases lo <;> simp [Memory.wfAbove]

/-- Every listed offset lies above the bound, so an offset at or below it reads as unlisted. -/
theorem Memory.read_below {m : Memory} {l k : Nat} (h : Memory.wfAbove (some l) m = true) (hk : k ≤ l) :
    Memory.read m k = Memory.unlisted := by
  induction m generalizing l with
  | nil => rfl
  | cons c m ih =>
    obtain ⟨ha, -, hm⟩ := Memory.wfAbove_cons.1 h
    have := ha l rfl
    have hne : k ≠ c.1 := by omega
    simpa [Memory.read, hne] using ih hm (by omega)

/-- A looser bound is easier to meet. -/
theorem Memory.wfAbove_mono {m : Memory} {a : Nat} {lo : Option Nat} (h : Memory.wfAbove (some a) m = true)
    (hl : ∀ l, lo = some l → l < a) : Memory.wfAbove lo m = true := by
  cases m with
  | nil => rfl
  | cons c m =>
    obtain ⟨h1, h2, h3⟩ := Memory.wfAbove_cons.1 h
    exact Memory.wfAbove_cons.2 ⟨fun l hl' => (hl l hl').trans (h1 a rfl), h2, h3⟩

/-- A write above the bound keeps the canonical form above the bound. -/
theorem Memory.wfAbove_write {m : Memory} {lo : Option Nat} {k : Nat} (v : Byte)
    (h : Memory.wfAbove lo m = true) (hk : ∀ l, lo = some l → l < k) :
    Memory.wfAbove lo (Memory.write m k v) = true := by
  induction m generalizing lo with
  | nil =>
    unfold Memory.write
    split
    · rfl
    · exact Memory.wfAbove_cons.2 ⟨hk, ‹_›, rfl⟩
  | cons c m ih =>
    obtain ⟨a, b⟩ := c
    obtain ⟨h1, h2, h3⟩ := Memory.wfAbove_cons.1 h
    unfold Memory.write
    split_ifs with h4 h5 h6 h7
    · exact h
    · exact Memory.wfAbove_cons.2 ⟨hk, h5, Memory.wfAbove_cons.2 ⟨fun l hl => by cases hl; exact h4, h2, h3⟩⟩
    · exact Memory.wfAbove_mono h3 h1
    · subst h6
      exact Memory.wfAbove_cons.2 ⟨h1, h7, h3⟩
    · exact Memory.wfAbove_cons.2 ⟨h1, h2, ih h3 fun l hl => by cases hl; omega⟩

/-- A write keeps the canonical form. -/
theorem Memory.wf_write {m : Memory} (k : Nat) (v : Byte) (h : m.wf = true) : Memory.wf (Memory.write m k v) = true :=
  Memory.wfAbove_write v h (by simp)

/-- Placing bytes keeps the canonical form. -/
theorem Memory.wf_writeBytes {m : Memory} (k : Nat) (bs : List Byte) (h : m.wf = true) :
    Memory.wf (Memory.writeBytes m k bs) = true := by
  induction bs generalizing m k with
  | nil => exact h
  | cons b bs ih => exact ih _ (Memory.wf_write k b h)

theorem Memory.read_write_above {m : Memory} {lo : Option Nat} (k : Nat) (v : Byte) (j : Nat)
    (h : Memory.wfAbove lo m = true) :
    Memory.read (Memory.write m k v) j = if j = k then v else Memory.read m j := by
  induction m generalizing lo with
  | nil =>
    unfold Memory.write
    split <;> simp_all
  | cons c m ih =>
    obtain ⟨a, b⟩ := c
    obtain ⟨-, -, h3⟩ := Memory.wfAbove_cons.1 h
    have below : ∀ i, i ≤ a → Memory.read m i = Memory.unlisted := fun i hi => Memory.read_below h3 hi
    rcases lt_trichotomy k a with hk | rfl | hk
    · by_cases hv : v = Memory.unlisted
      · by_cases hj : j = k
        · simp [Memory.write, hk, hv, hj, hk.ne, below k hk.le]
        · simp [Memory.write, hk, hv, hj]
      · simp [Memory.write, hk, hv]
    · by_cases hv : v = Memory.unlisted <;> by_cases hj : j = k <;> simp [Memory.write, hv, hj, below k le_rfl]
    · by_cases hj : j = a
      · simp [Memory.write, hk.not_gt, hk.ne', hj, hk.ne]
      · simp [Memory.write, hk.not_gt, hk.ne', hj, ih h3]

/-- A read after a write: the byte written at that offset, the old byte elsewhere. -/
theorem Memory.read_write {m : Memory} (k : Nat) (v : Byte) (j : Nat) (h : m.wf = true) :
    Memory.read (Memory.write m k v) j = if j = k then v else Memory.read m j :=
  Memory.read_write_above k v j h

/-- Placed bytes read back, and every other offset reads as before. -/
theorem Memory.read_writeBytes {m : Memory} (k : Nat) (bs : List Byte) (j : Nat) (h : m.wf = true) :
    Memory.read (Memory.writeBytes m k bs) j =
      if k ≤ j ∧ j < k + bs.length then bs.getD (j - k) 0 else Memory.read m j := by
  induction bs generalizing m k with
  | nil => simp [Memory.writeBytes, show ¬(k ≤ j ∧ j < k) by omega]
  | cons b bs ih =>
    rw [Memory.writeBytes, ih (k + 1) (Memory.wf_write k b h), Memory.read_write k b j h]
    rcases lt_trichotomy j k with hj | rfl | hj
    · rw [if_neg (by omega), if_neg (by omega), if_neg (by omega)]
    · simp
    · have : j - k = (j - (k + 1)) + 1 := by omega
      simp only [List.length_cons, this, List.getD_cons_succ, show j ≠ k by omega, if_false]
      congr 1
      simp only [eq_iff_iff]
      omega

end Sys2Proof.Machine
end

