-- ==== Sys2Proof/Laws/PerInstr.lean ====
section
/-! SUPPORT. The family `EncodedLength`: how many bytes each instruction's encoding has (R63 to R66, R71 for the frames;
the packing of log entry 1 for requests). -/

namespace Sys2Proof.Laws.EncodedLength

/-- The number of bytes of an encoding. -/
def bytes : Instr → Nat
  | .rxrdy | .rdbyte | .waitrd | .flush | .loadfw | .reservedE | .reservedF => 1
  | .wrbyte _ => 2
  | .lo _ | .hi _ | .join _ _ | .ms2tS _ | .ms2tC _ => 3
  | .mkop _ _ => 4
  | .swap6 _ => 7
  | .sendcmd _ p => 4 + p.length
  | .frameCmd _ p => 4 + p.length
  | .frameEvtStatus _ _ => 7
  | .frameEvtComplete _ _ _ => 7
  | .frameFwrec _ _ p => 3 + p.length
  | .frameAcl _ _ _ _ =>
    1 + (Config.aclHandleBytes + (Config.aclTotalLenBytes + (Config.aclL2capLenBytes + (Config.aclCidBytes + 5))))

/-- A well-formed instruction is encoded in that many bytes. -/
def Statement (i : Instr) : Prop := i.wellFormed = true → (encode i).length = bytes i

theorem rxrdy : Statement .rxrdy := fun _ => rfl
theorem rdbyte : Statement .rdbyte := fun _ => rfl
theorem waitrd : Statement .waitrd := fun _ => rfl
theorem wrbyte (b : Byte) : Statement (.wrbyte b) := fun _ => rfl
theorem flush : Statement .flush := fun _ => rfl
theorem mkop (ogf : BitVec 6) (ocf : BitVec 10) : Statement (.mkop ogf ocf) := fun _ => rfl
theorem lo (v : Word16) : Statement (.lo v) := fun _ => rfl
theorem hi (v : Word16) : Statement (.hi v) := fun _ => rfl
theorem join (l h : Byte) : Statement (.join l h) := fun _ => rfl
theorem sendcmd (opcode : Word16) (p : List Byte) : Statement (.sendcmd opcode p) := fun _ => by
  simp only [encode, bytes, List.length_append, List.length_cons, List.length_nil]
theorem swap6 (a : Vector Byte 6) : Statement (.swap6 a) := fun _ => rfl
theorem ms2tS (ms : Word16) : Statement (.ms2tS ms) := fun _ => rfl
theorem ms2tC (ms : Word16) : Statement (.ms2tC ms) := fun _ => rfl
theorem loadfw : Statement .loadfw := fun _ => rfl
theorem reservedE : Statement .reservedE := fun _ => rfl
theorem reservedF : Statement .reservedF := fun _ => rfl
theorem frameCmd (opcode : Word16) (payload : List Byte) : Statement (.frameCmd opcode payload) := fun _ => by
  simp only [encode, bytes, List.length_append, List.length_cons, List.length_nil]
theorem frameEvtStatus (echoLo echoHi : Byte) : Statement (.frameEvtStatus echoLo echoHi) := fun _ => rfl
theorem frameEvtComplete (count echoLo echoHi : Byte) : Statement (.frameEvtComplete count echoLo echoHi) :=
  fun _ => rfl
theorem frameFwrec (opLo opHi : Byte) (payload : List Byte) : Statement (.frameFwrec opLo opHi payload) := fun _ => by
  simp only [encode, bytes, List.length_append, List.length_cons, List.length_nil]
theorem frameAcl (handle totalLen l2capLen gatt : List Byte) : Statement (.frameAcl handle totalLen l2capLen gatt) := by
  intro h
  simp only [Instr.wellFormed, Bool.and_eq_true, decide_eq_true_eq] at h
  simp [encode, bytes, h]
  omega

end Sys2Proof.Laws.EncodedLength
end

