-- ==== Sys2Proof/Tests/Slice0.lean ====
section
/-! SUPPORT. The model's own tests: ill-formed terms that WellFormed refuses, words written out from the spec's
encodings, one-step tests with results taken from the vectors of spec/95_test_vectors.md (V) and from the worked
examples of the rules (R), and for each statement with hypotheses a state and operands that meet them together. -/

open Sys2Proof Sys2Proof.Machine Sys2Proof.Claims

namespace Sys2Proof.Tests

/-! ## WellFormed refuses what cannot be expressed -/

/-- 256 bytes: one more than `PAYLOAD_MAX` (R61). -/
def tooLong : List Byte := List.replicate 256 0
/-- 255 bytes: `PAYLOAD_MAX`. -/
def longest : List Byte := List.replicate 255 0

theorem length_tooLong : tooLong.length = 256 := List.length_replicate
theorem length_longest : longest.length = 255 := List.length_replicate
theorem not_payloadFits_tooLong : payloadFits tooLong = false := decide_eq_false (by rw [length_tooLong]; decide)
theorem payloadFits_longest : payloadFits longest = true := decide_eq_true (by rw [length_longest])

theorem test_sendcmd_payload_256_refused : (Instr.sendcmd 0x1234 tooLong).wellFormed = false := not_payloadFits_tooLong
theorem test_sendcmd_payload_255_accepted : (Instr.sendcmd 0x1234 longest).wellFormed = true := payloadFits_longest
theorem test_frameCmd_payload_256_refused : (Instr.frameCmd 0x1234 tooLong).wellFormed = false := not_payloadFits_tooLong
theorem test_frameFwrec_payload_256_refused : (Instr.frameFwrec 0x4c 0xfc tooLong).wellFormed = false := not_payloadFits_tooLong
theorem test_frameEvtComplete_count_zero_refused : (Instr.frameEvtComplete 0 0x34 0x12).wellFormed = false := by decide
theorem test_frameEvtComplete_count_255_accepted : (Instr.frameEvtComplete 0xff 0x34 0x12).wellFormed = true := by
  decide
theorem test_frameAcl_four_gatt_bytes_refused (h t l : List Byte) :
    (Instr.frameAcl h t l [1, 2, 3, 4]).wellFormed = false := rfl
theorem test_frameAcl_wrong_handle_width_refused (t l g : List Byte) :
    (Instr.frameAcl (List.replicate (Config.aclHandleBytes + 1) 0) t l g).wellFormed = false := by
  simp [Instr.wellFormed]
theorem test_frameAcl_wrong_total_width_refused (h l g : List Byte) :
    (Instr.frameAcl h (List.replicate (Config.aclTotalLenBytes + 1) 0) l g).wellFormed = false := by
  simp [Instr.wellFormed]
theorem test_frameAcl_wrong_l2cap_width_refused (h t g : List Byte) :
    (Instr.frameAcl h t (List.replicate (Config.aclL2capLenBytes + 1) 0) g).wellFormed = false := by
  simp [Instr.wellFormed]
theorem test_frameAcl_right_widths_accepted :
    (Instr.frameAcl (List.replicate Config.aclHandleBytes 0) (List.replicate Config.aclTotalLenBytes 0)
      (List.replicate Config.aclL2capLenBytes 0) [1, 2, 3, 4, 5]).wellFormed = true := by
  simp [Instr.wellFormed]

/-! ## Words written out from the encodings (R60, R61 with log entry 1; R63 to R66) -/

theorem test_decode_rxrdy : decode .request [0b00000000] = .ok (.rxrdy, []) := rfl
theorem test_decode_rdbyte : decode .request [0b00000001] = .ok (.rdbyte, []) := rfl
theorem test_decode_waitrd : decode .request [0b00000010] = .ok (.waitrd, []) := rfl
theorem test_decode_wrbyte : decode .request [0b00000011, 0x7e] = .ok (.wrbyte 0x7e, []) := rfl
theorem test_decode_flush : decode .request [0b00000100] = .ok (.flush, []) := rfl
theorem test_decode_mkop : decode .request [0b00000101, 0x20, 0x34, 0x02] = .ok (.mkop 0x20 0x234, []) := rfl
theorem test_decode_mkop_ocf_too_wide : decode .request [0b00000101, 0x20, 0x34, 0x04] = .error .operandRange := rfl
theorem test_decode_lo : decode .request [0b00000110, 0x18, 0xfc] = .ok (.lo 0xfc18, []) := rfl
theorem test_decode_hi : decode .request [0b00000111, 0x18, 0xfc] = .ok (.hi 0xfc18, []) := rfl
theorem test_decode_join : decode .request [0b00001000, 0x18, 0xfc] = .ok (.join 0x18 0xfc, []) := rfl
theorem test_decode_sendcmd :
    decode .request [0b00001001, 0x34, 0x12, 0x02, 0x01, 0x02] = .ok (.sendcmd 0x1234 [0x01, 0x02], []) := rfl
theorem test_decode_sendcmd_short : decode .request [0b00001001, 0x34, 0x12, 0x02, 0x01] = .error .truncated := rfl
theorem test_decode_swap6 :
    decode .request [0b00001010, 0x11, 0x22, 0x33, 0x44, 0x55, 0x66] =
      .ok (.swap6 #v[0x11, 0x22, 0x33, 0x44, 0x55, 0x66], []) := rfl
theorem test_decode_ms2tS : decode .request [0b00001011, 0xff, 0x9f] = .ok (.ms2tS 40959, []) := rfl
theorem test_decode_ms2tC : decode .request [0b00001100, 0x64, 0x00] = .ok (.ms2tC 100, []) := rfl
theorem test_decode_loadfw : decode .request [0b00001101] = .ok (.loadfw, []) := rfl
theorem test_decode_reservedE : decode .request [0b00001110] = .ok (.reservedE, []) := rfl
theorem test_decode_reservedF : decode .request [0b00001111] = .ok (.reservedF, []) := rfl
/-- The frame of V14, as V19 decodes it. -/
theorem test_decode_frameCmd :
    decode .txWire [0x01, 0x34, 0x12, 0x02, 0x01, 0x02] = .ok (.frameCmd 0x1234 [0x01, 0x02], []) := rfl
/-- V15. -/
theorem test_decode_frameEvtStatus :
    decode .rxWire [0x04, 0x0f, 0x04, 0x00, 0x00, 0x34, 0x12] = .ok (.frameEvtStatus 0x34 0x12, []) := rfl
/-- V16. -/
theorem test_decode_frameEvtComplete :
    decode .rxWire [0x04, 0x0e, 0x04, 0xff, 0x34, 0x12, 0x00] = .ok (.frameEvtComplete 0xff 0x34 0x12, []) := rfl
/-- V24: a zero count is neither shape. -/
theorem test_decode_zero_count : decode .rxWire [0x04, 0x0e, 0x04, 0x00, 0x34, 0x12, 0x00] = .error .unknownEvent := rfl
/-- The records of R136. -/
theorem test_decode_frameFwrec :
    decode .image [0x4c, 0xfc, 0x02, 0xaa, 0xbb, 0x4e, 0xfc, 0x00] =
      .ok (.frameFwrec 0x4c 0xfc [0xaa, 0xbb], [0x4e, 0xfc, 0x00]) := rfl
/-- The first byte of R66; its other fields have open widths (N14). -/
theorem test_decode_frameAcl (r : List Byte) : decode .txWire (0x02 :: r) = decodeAcl r := rfl
/-- An event is not the host's to send (R64: chip to host only). -/
theorem test_decode_event_to_chip : decode .txWire [0x04, 0x0e] = .error .unknownTxFrame := rfl
theorem test_table_word_status : decodeTableWord 56 0x040F0400000000 = some (.frameEvtStatus 0 0) := by decide
theorem test_table_word_complete : decodeTableWord 56 0x040E0401341200 = some (.frameEvtComplete 1 0x34 0x12) := by
  decide

/-! ## One step -/

/-- The three records of V61 to V64. -/
def rec0 : Rec := ⟨0x4c, 0xfc, [0xaa, 0xbb]⟩
/-- See `rec0`. -/
def rec1 : Rec := ⟨0x4e, 0xfc, []⟩
/-- See `rec0`. -/
def rec2 : Rec := ⟨0x18, 0xfc, [0x07]⟩

/-- The parameters of V61: `FW_BEGIN_OPCODE = 0xABCD` and the image of twelve bytes. -/
def par : Params :=
  Params.withImage ⟨64, 0xABCD, 0, []⟩ [0x4c, 0xfc, 0x02, 0xaa, 0xbb, 0x4e, 0xfc, 0x00, 0x18, 0xfc, 0x01, 0x07]

/-- An idle SPE with those bytes in `RXQ` and `tx_full = 0`, nothing scheduled. -/
def start (rxq : List Byte) : State := { State.resetWith par with rxq := rxq, txFull := false }

/-- The same in a phase of the command `0x1234` with an empty payload. -/
def inPhase (p : Phase) (rxq : List Byte) : State := { start rxq with phase := p, opLo := 0x34, opHi := 0x12 }

/-- A value read off the next state. -/
def after {α : Type} (r : Result) (f : State → α) : Option α :=
  match r with
  | .next s => some (f s)
  | _ => none

/-- The reason of a refusal. -/
def refusal : Result → Option Refusal
  | .refused r => some r
  | _ => none

/-- V1. -/
theorem test_rxrdy_empty : after (exec .rxrdy (start [])) State.resps = some [.flag false] := by decide
/-- V2. -/
theorem test_rxrdy_one :
    after (exec .rxrdy (start [0x55])) (fun s => (s.resps, s.rxq)) = some ([.flag true], [0x55]) := by decide
/-- V3. -/
theorem test_rdbyte :
    after (exec .rdbyte (start [0xaa, 0xbb])) (fun s => (s.resps, s.rxq)) = some ([.byte 0xaa], [0xbb]) := by decide
/-- V4. -/
theorem test_rdbyte_empty : refusal (exec .rdbyte (start [])) = some .rdbyteNotReady := by decide
/-- The example of R72. -/
theorem test_waitrd :
    after (step (inPhase .tWaitrd [0x04, 0x0e])) (fun s => (s.resps, s.rxq, s.phase)) =
      some ([.byte 0x04], [0x0e], .idle) := by decide
/-- V6: the wait holds. -/
theorem test_waitrd_holds : after (step (inPhase .tWaitrd [])) (fun s => (s.phase, s.resps)) = some (.tWaitrd, []) := by
  decide
/-- V6a. -/
theorem test_wrbyte :
    after (step { inPhase .tWrbyte [] with portByte := 0x02 }) (fun s => (s.txs, s.phase)) = some ([0x02], .idle) := by
  decide
/-- V6b. -/
theorem test_wrbyte_full :
    after (step { inPhase .tWrbyte [] with portByte := 0x02, txFull := true }) (fun s => (s.txs, s.phase)) =
      some ([], .tWrbyte) := by decide
/-- V6c, one byte of it. -/
theorem test_flush_discards :
    after (step (inPhase .tFlush [0x00, 0xff, 0x04])) (fun s => (s.rxq, s.phase)) = some ([0xff, 0x04], .tFlush) := by
  decide
/-- R76 (c): under traffic without pause the queue is never seen empty. -/
theorem test_flush_under_traffic :
    after (step { inPhase .tFlush [] with sched := [.link (.traffic [0x55])] }) (fun s => (s.rxq, s.sched)) =
      some ([0x55], [.spe, .link (.traffic [0x55])]) := by decide
/-- V6d. -/
theorem test_flush_empty : after (step (inPhase .tFlush [])) (fun s => (s.rxq, s.phase)) = some ([], .idle) := by decide
/-- V11: OCF bit 9 lands in bit 1 of the high byte. -/
theorem test_mkop : after (exec (.mkop 0x20 0x200) (start [])) State.resps = some [.word 0x8200] := by decide
/-- V8. -/
theorem test_mkop_maximal : after (exec (.mkop 0x3F 0x3FF) (start [])) State.resps = some [.word 0xFFFF] := by decide
/-- V13. -/
theorem test_lo : after (exec (.lo 0x1234) (start [])) State.resps = some [.byte 0x34] := by decide
/-- V13. -/
theorem test_hi : after (exec (.hi 0x1234) (start [])) State.resps = some [.byte 0x12] := by decide
/-- V13. -/
theorem test_join : after (exec (.join 0x34 0x12) (start [])) State.resps = some [.word 0x1234] := by decide
/-- V43. -/
theorem test_swap6 :
    after (exec (.swap6 #v[0x11, 0x22, 0x33, 0x44, 0x55, 0x66]) (start [])) State.resps =
      some [.address #v[0x66, 0x55, 0x44, 0x33, 0x22, 0x11]] := by decide
/-- V49: truncated, not rounded. -/
theorem test_ms2tS : after (exec (.ms2tS 3) (start [])) State.resps = some [.ticks 4 0x04 0x00 false] := by decide
/-- V57. -/
theorem test_ms2tS_largest :
    after (exec (.ms2tS 40959) (start [])) State.resps = some [.ticks 65534 0xfe 0xff false] := by decide
/-- V58: only `OVF` is specified. -/
theorem test_ms2tS_overflow : tickOverflow 8 40960 = true ∧ tickOverflow 8 40959 = false := by decide
/-- V58. -/
theorem test_ms2tC : after (exec (.ms2tC 40960) (start [])) State.resps = some [.ticks 32768 0x00 0x80 false] := by
  decide
/-- V59. -/
theorem test_ms2tC_largest :
    after (exec (.ms2tC 65535) (start [])) State.resps = some [.ticks 52428 0xcc 0xcc false] := by decide
/-- V14: the issue. -/
theorem test_sendcmd_issue :
    after (exec (.sendcmd 0x1234 [0x01, 0x02]) (start [])) (fun s => (s.opLo, s.opHi, s.len, s.idx, s.phase)) =
      some (0x34, 0x12, 2, 0, .txType) := by decide
/-- V17: the last byte of a frame without payload. -/
theorem test_sendcmd_no_payload :
    after (step (inPhase .txLen [])) (fun s => (s.txs, s.phase)) = some ([0x00], .rxType) := by decide
/-- V20. -/
theorem test_check_type :
    after (step (inPhase .rxType [0x02, 0x0e])) (fun s => (s.rcode, s.rinfo, s.rxq, s.phase)) =
      some (1, 0, [0x0e], .idle) := by decide
/-- V21. -/
theorem test_check_code : after (step (inPhase .rxCode [0x3e])) (fun s => (s.rcode, s.phase)) = some (12, .idle) := by
  decide
/-- V31. -/
theorem test_check_sLen : after (step (inPhase .sLen [0x03])) State.rcode = some 2 := by decide
/-- V32. -/
theorem test_check_sStatus :
    after (step (inPhase .sStatus [0x12])) (fun s => (s.rcode, s.rinfo, s.logs)) = some (3, 0x12, [.deviceStatus 0x12]) := by
  decide
/-- V33. -/
theorem test_check_sCount : after (step (inPhase .sCount [0x01])) State.rcode = some 4 := by decide
/-- V34. -/
theorem test_check_sEchoLo : after (step (inPhase .sEchoLo [0x33])) State.rcode = some 5 := by decide
/-- V35. -/
theorem test_check_sEchoHi : after (step (inPhase .sEchoHi [0x00])) State.rcode = some 6 := by decide
/-- V23. -/
theorem test_check_cLen : after (step (inPhase .cLen [0x05])) State.rcode = some 7 := by decide
/-- V24. -/
theorem test_check_cCount : after (step (inPhase .cCount [0x00])) State.rcode = some 8 := by decide
/-- V26. -/
theorem test_check_cEchoLo : after (step (inPhase .cEchoLo [0x35])) State.rcode = some 9 := by decide
/-- V27. -/
theorem test_check_cEchoHi : after (step (inPhase .cEchoHi [0x13])) State.rcode = some 10 := by decide
/-- V28: the byte is not kept. -/
theorem test_check_cStatus :
    after (step (inPhase .cStatus [0x0c])) (fun s => (s.rcode, s.rinfo, s.logs)) = some (11, 0, []) := by decide
/-- V61: the issue of the begin-load command. -/
theorem test_loadfw_issue :
    after (exec .loadfw (start [])) (fun s => (s.inFw, s.opLo, s.opHi, s.len, s.phase)) =
      some (true, 0xcd, 0xab, 0, .txType) := by decide
/-- V65. -/
theorem test_loadfw_cut_short :
    refusal (exec .loadfw { start [] with par := Params.withImage par [0x4c, 0xfc, 0x02, 0xaa] }) =
      some .imageNotWellFormed := by decide
/-- V61: the record at offset 5 is the one with no payload; V62: it fails with the cursor at 5. -/
theorem test_record_at_cursor :
    after (step { start [] with phase := .fwNext, inFw := true, cursor := 5 }) (fun s => (s.opLo, s.opHi, s.len)) =
      some (0x4e, 0xfc, 0) := by decide
/-- V62: the abort; `RCODE` still holds the result before the load (R30, R130). -/
theorem test_load_aborts :
    after (step { inPhase .cStatus [0x0c] with inFw := true, cursor := 5, rcode := 4 })
      (fun s => (s.rcode, s.cursor, s.logs, s.phase)) = some (4, 5, [.fwAbort 11], .fwSettle) := by decide
/-- V62: the load's end writes `RCODE` (R130). -/
theorem test_load_ends :
    after (step { inPhase .fwSettle [] with inFw := true, rcode := 4, fwCode := .nonZeroStatus })
      (fun s => (s.rcode, s.resps, s.phase)) = some (11, [.result 11 0], .idle) := by decide
/-- R68 (a). -/
theorem test_reservedE : refusal (exec .reservedE (start [])) = some (.reservedSelector 0xE) := by decide
/-- R68 (a). -/
theorem test_reservedF : refusal (exec .reservedF (start [])) = some (.reservedSelector 0xF) := by decide
/-- R63. -/
theorem test_frameCmd :
    after (exec (.frameCmd 0x1234 []) (start [])) (fun s => (s.opLo, s.opHi, s.len)) = some (0x34, 0x12, 0) := by decide
/-- R64. -/
theorem test_frameEvtStatus :
    after (exec (.frameEvtStatus 0x34 0x12) (start [])) State.rxq = some [0x04, 0x0f, 0x04, 0x00, 0x00, 0x34, 0x12] := by
  decide
/-- R64. -/
theorem test_frameEvtComplete :
    after (exec (.frameEvtComplete 0x01 0x34 0x12) (start [])) State.rxq =
      some [0x04, 0x0e, 0x04, 0x01, 0x34, 0x12, 0x00] := by decide
/-- R65, R131. -/
theorem test_frameFwrec :
    after (exec (.frameFwrec 0x4c 0xfc [0xaa, 0xbb]) { start [] with phase := .fwNext }) (fun s => (s.opLo, s.opHi, s.len)) =
      some (0x4c, 0xfc, 2) := by decide
/-- R153: the first operation is `WRBYTE 0x02`. -/
theorem test_frameAcl (h t l g : List Byte) :
    after (exec (.frameAcl h t l g) (start [])) (fun s => (s.portByte, s.phase)) = some (0x02, .tWrbyte) := rfl
/-- S8: both counts of 60 ms are 96, `lo = 0x60`, `hi = 0x00` (R152 (a)). -/
theorem test_scan_counts : (Client.tickLo 8 60, Client.tickHi 8 60) = ([0x60], [0x00]) := by decide
/-- R143, R142: the first operation of `setBdAddr` is the swap. -/
theorem test_setBdAddr_swaps (a : Vector Byte 6) : (Client.setBdAddr a).head? = some (.swap6 a) := rfl
/-- R68 (b). -/
theorem test_busy : refusal (exec .rxrdy (inPhase .tWaitrd [])) = some .busy := by decide

/-! ## States and operands that meet the hypotheses of the statements

One theorem for each statement that has hypotheses; a statement not named here has none. -/

/-- A good answer to `xx yy` (spec/95_test_vectors.md). -/
def good (lo hi : Byte) : List Byte := [0x04, 0x0e, 0x04, 0x01, lo, hi, 0x00]

theorem witness_DecodeOfEncodeIsTheInstruction :
    (Instr.sendcmd 0x1234 longest).wellFormed = true ∧ (Instr.frameEvtComplete 0x01 0x34 0x12).wellFormed = true ∧
      (Instr.frameAcl (List.replicate Config.aclHandleBytes 0) (List.replicate Config.aclTotalLenBytes 0)
        (List.replicate Config.aclL2capLenBytes 0) [1, 2, 3, 4, 5]).wellFormed = true :=
  ⟨test_sendcmd_payload_255_accepted, rfl, test_frameAcl_right_widths_accepted⟩

/-- A payload of no byte and one of 255. -/
theorem witness_FramesAreReadAtTheirOffsets : ([] : List Byte).length ≤ 255 ∧ longest.length ≤ 255 :=
  ⟨by decide, length_longest.le⟩

theorem par_wf : par.wf := by
  refine ⟨by decide, by decide, by decide⟩

/-- The invariant holds of the idle machine. -/
theorem witness_NoFaultUnderTheInvariant : Inv (start []) := by
  constructor <;> first
    | exact par_wf
    | decide
    | simp [start, State.resetWith]

/-- The invariant holds in the middle of a load too: the command of record 1 (offset 5) waits for its last byte. -/
theorem witness_invariant_in_a_load :
    Inv { start [0x00] with
      phase := .cStatus, inFw := true, cursor := 5, opLo := 0x4e, opHi := 0xfc, len := 0 } := by
  constructor <;> first
    | exact par_wf
    | exact fun _ _ _ => ⟨by decide, by decide, by decide, 1, by decide⟩
    | exact fun h => absurd h (by decide)
    | decide

theorem witness_EveryStepKeepsTheInvariant : Inv (start []) ∧ ∃ t, step (start []) = .next t :=
  ⟨witness_NoFaultUnderTheInvariant, _, rfl⟩

theorem witness_InvariantHoldsAtLaunch : par.wf := par_wf

/-- A `LOADFW` request with the host's turn next. -/
def asked : State := { start [] with hostq := [.request [0x0D]], sched := [.host] }
/-- A command frame as the host's next item, nothing scheduled. -/
def framed : State := { start [] with hostq := [.frame [0x01, 0x34, 0x12, 0x00]] }

theorem witness_StepRunsTheDecodedRequest :
    (decode .request [0x0D] = .ok (.loadfw, []) ∧ asked.hostq = .request [0x0D] :: [] ∧ asked.sched = .host :: []) ∧
      (decode .txWire [0x01, 0x34, 0x12, 0x00] = .ok (.frameCmd 0x1234 [], []) ∧
        framed.hostq = .frame [0x01, 0x34, 0x12, 0x00] :: [] ∧ framed.sched = [] ∧ framed.phase = .idle) :=
  ⟨⟨rfl, rfl, rfl⟩, rfl, rfl, rfl, rfl⟩

/-- Between commands with the cursor at the last record of the image, at offset 8 of 12. -/
def atLastRecord : State := { inPhase .fwNext [] with inFw := true, cursor := 8 }

theorem witness_StepRunsTheRecordAtTheCursor :
    atLastRecord.sched = [] ∧ ({ atLastRecord with sched := [.spe] } : State).sched = .spe :: [] ∧
      atLastRecord.phase = .fwNext ∧ atLastRecord.cursor.toNat < atLastRecord.par.fwSize ∧
      atLastRecord.par.memRead atLastRecord.cursor.toNat
          (3 + (atLastRecord.par.img.read (atLastRecord.cursor.toNat + 2)).toNat) = some [0x18, 0xfc, 0x01, 0x07] ∧
      decode .image [0x18, 0xfc, 0x01, 0x07] = .ok (.frameFwrec 0x18 0xfc [0x07], []) := by decide

/-- The link's next move is a frame of these bytes. -/
def sends (bs : List Byte) : State := { start [] with sched := [.link (.frame bs)] }

theorem witness_StepDeliversTheLinksFrame :
    (sends (good 0x34 0x12)).sched = .link (.frame (good 0x34 0x12)) :: [] ∧
      decode .rxWire (good 0x34 0x12) = .ok (.frameEvtComplete 0x01 0x34 0x12, []) ∧
      (sends [0x04, 0x3e]).sched = .link (.frame [0x04, 0x3e]) :: [] ∧
      (∀ i, decode .rxWire [0x04, 0x3e] ≠ .ok (i, [])) :=
  ⟨rfl, rfl, rfl, fun _ h => (by cases h)⟩

theorem witness_FetchedTableWordRunsNext : decodeTableWord 8 0x4 = some .flush := by decide

/-- The hypothesis of the statements about a request made of an idle SPE, with an empty queue and with one byte. -/
theorem witness_idle : (start []).phase = .idle ∧ (start []).rxq = [] ∧ (start [0x55]).phase = .idle ∧
    (start [0x55]).rxq = 0x55 :: [] := ⟨rfl, rfl, rfl, rfl⟩

theorem witness_MkopAnswersTheComposedOpcode : (start []).phase = .idle := rfl
theorem witness_ByteUtilitiesAnswer : (start []).phase = .idle := rfl
theorem witness_SplitAndJoinAreInverse : composeOpcode 0x3F 0x018 = composeOpcode 0x3F 0x018 := rfl
theorem witness_SwapReversesTheAddress : (start []).phase = .idle := rfl
/-- 40959 is the largest operand whose count fits. -/
theorem witness_ScanTicksAnswer :
    (start []).phase = .idle ∧ (40959 : Word16).toNat * 8 / 5 < 65536 ∧ ¬(40960 : Word16).toNat * 8 / 5 < 65536 := by
  decide
theorem witness_ConnectionTicksAnswer : (start []).phase = .idle := rfl
theorem witness_TickBytesJoinToTheCount :
    (start []).phase = .idle ∧ Instr.ms2tS 60 = .ms2tS 60 ∧ Instr.ms2tC 100 = .ms2tC 100 := by decide
theorem witness_TickCountsAreMonotoneAndTight :
    tickOverflow 8 40959 = false ∧ (0 : Word16).toNat ≤ (40959 : Word16).toNat ∧
      (40955 : Word16).toNat = 5 * 8191 ∧ 8 * 8191 < 65536 := by decide
theorem witness_RxrdyAnswersReadiness : (start []).phase = .idle := rfl
theorem witness_RdbyteTakesTheOldestOrRefuses :
    ((start [0x55]).phase = .idle ∧ (start [0x55]).rxq = 0x55 :: []) ∧ (start []).phase = .idle ∧ (start []).rxq = [] :=
  ⟨⟨rfl, rfl⟩, rfl, rfl⟩
theorem witness_WaitrdHoldsThenTakesTheOldest :
    ((start []).phase = .idle ∧ (start []).rxq = []) ∧ (start [0x55]).phase = .idle ∧ (start [0x55]).rxq = 0x55 :: [] :=
  ⟨⟨rfl, rfl⟩, rfl, rfl⟩
theorem witness_WrbyteHoldsThenSends :
    ((start []).phase = .idle ∧ (start []).txFull = false) ∧
      ({ start [] with txFull := true } : State).phase = .idle ∧ ({ start [] with txFull := true } : State).txFull = true :=
  ⟨⟨rfl, rfl⟩, rfl, rfl⟩
theorem witness_FlushDrainsTheQueue : (start [0x00, 0xff]).phase = .idle ∧ (start [0x00, 0xff]).sched = [] := ⟨rfl, rfl⟩
theorem witness_FlushTakesBytesThatArriveInTime :
    (inPhase .tFlush [0x00]).phase = .tFlush ∧ (inPhase .tFlush [0x00]).rxq.length < (inPhase .tFlush [0x00]).par.rxqDepth ∧
      ({ inPhase .tFlush [0x00] with sched := [.link (.deliver 4)] } : State).sched = [.link (.deliver 4)] ∧
      (inPhase .tFlush []).rxq = [] ∧
      ({ inPhase .tFlush [] with sched := [.spe, .link (.deliver 4)] } : State).sched = [.spe, .link (.deliver 4)] ∧
      ({ inPhase .tFlush [] with sched := [.link (.traffic [4])] } : State).sched = [.link (.traffic [4])] :=
  ⟨rfl, by decide, rfl, rfl, rfl, rfl⟩
theorem witness_EveryRequestIsRefusedWhileBusy :
    (inPhase .tWaitrd []).busy = true ∧ Instr.rxrdy.space = .request ∧ (Instr.frameCmd 0x1234 []).space = .txWire := by
  decide
theorem witness_SendcmdLatchesItsOperands :
    (start []).phase = .idle ∧ longest.length ≤ 255 ∧ Instr.frameCmd 0x1234 longest = .frameCmd 0x1234 longest :=
  ⟨rfl, length_longest.le, rfl⟩

/-- Each header phase, with `tx_full` both ways and, for the length byte, `LEN` zero and 255. -/
theorem witness_HeaderStepsSendOneByte :
    (∀ p ∈ [Phase.txType, .txOpLo, .txOpHi, .txLen], (inPhase p []).phase.sendsHeader = true ∧
      (inPhase p []).txFull = false ∧ ({ inPhase p [] with txFull := true } : State).txFull = true) ∧
      (inPhase .txLen []).len = 0 ∧ ({ inPhase .txLen [] with len := 255 } : State).len ≠ 0 := by decide

/-- The first and the last payload index. -/
theorem witness_PayloadStepSendsTheByteAtIdx :
    (inPhase .txPayload []).phase = .txPayload ∧ (inPhase .txPayload []).idx.toNat < 255 ∧
      ({ inPhase .txPayload [] with idx := 254, len := 255 } : State).idx.toNat < 255 ∧
      (inPhase .txPayload []).txFull = false ∧
      ({ inPhase .txPayload [] with txFull := true } : State).txFull = true := by decide

theorem witness_TypeAndCodeChecks :
    (inPhase .rxType []).phase.receivesEvent = true ∧ (inPhase .rxType []).rxq = [] ∧
      (∀ b ∈ [(0x04 : Byte), 0x05], (inPhase .rxType [b]).phase = .rxType ∧ (inPhase .rxType [b]).rxq = b :: []) ∧
      ∀ b ∈ [(0x0f : Byte), 0x0e, 0x10], (inPhase .rxCode [b]).phase = .rxCode ∧ (inPhase .rxCode [b]).rxq = b :: [] := by
  decide

/-- Each phase with a byte that passes and a byte next to it that does not (`OPLO = 0x34`, `OPHI = 0x12`). -/
theorem witness_StatusShapeChecks :
    (∀ x ∈ [(Phase.sLen, (4 : Byte)), (.sLen, 5), (.sStatus, 0), (.sStatus, 1), (.sCount, 0), (.sCount, 1),
        (.sEchoLo, 0x34), (.sEchoLo, 0x35), (.sEchoHi, 0x12), (.sEchoHi, 0x13)],
      (inPhase x.1 [x.2]).phase = x.1 ∧ (inPhase x.1 [x.2]).rxq = x.2 :: []) ∧
      (inPhase .sEchoLo []).opLo = 0x34 ∧ (inPhase .sEchoHi []).opHi = 0x12 := by decide

/-- See `witness_StatusShapeChecks`. -/
theorem witness_CompleteShapeChecks :
    (∀ x ∈ [(Phase.cLen, (4 : Byte)), (.cLen, 3), (.cCount, 1), (.cCount, 0), (.cEchoLo, 0x34), (.cEchoLo, 0x35),
        (.cEchoHi, 0x12), (.cEchoHi, 0x13), (.cStatus, 0), (.cStatus, 1)],
      (inPhase x.1 [x.2]).phase = x.1 ∧ (inPhase x.1 [x.2]).rxq = x.2 :: []) ∧
      (inPhase .cEchoLo []).opLo = 0x34 ∧ (inPhase .cEchoHi []).opHi = 0x12 := by decide

/-- V32 and V33 outside a load, V63's status inside one. -/
theorem witness_FailureRecordsItsCodeAndNothingElse :
    (inPhase .sStatus [0x12]).phase.receivesEvent = true ∧ (inPhase .sStatus [0x12]).rxq = 0x12 :: [] ∧
      (∃ t, speStep (inPhase .sStatus [0x12]) = .next t) ∧
      after (speStep (inPhase .sStatus [0x12])) (fun t => (t.phase, t.rcode)) = some (.idle, 3) ∧
      after (speStep (inPhase .sCount [0x01])) (fun t => (t.phase, t.rcode)) = some (.idle, 4) ∧
      after (speStep { inPhase .sStatus [0x01] with inFw := true }) (fun t => (t.phase, t.fwCode)) =
        some (.fwSettle, .deviceReportedError) :=
  ⟨rfl, rfl, ⟨_, rfl⟩, by decide, by decide, by decide⟩

/-- V14's answer, outside a load and inside one. -/
theorem witness_AcceptedAnswersAreExactlyTwoFamilies :
    (∀ f, ({ inPhase .rxType (good 0x34 0x12 ++ [0x7e]) with inFw := f } : State).phase = .rxType ∧
      ({ inPhase .rxType (good 0x34 0x12 ++ [0x7e]) with inFw := f } : State).sched = [] ∧
      ({ inPhase .rxType (good 0x34 0x12 ++ [0x7e]) with inFw := f } : State).hostq = [] ∧
      ({ inPhase .rxType (good 0x34 0x12 ++ [0x7e]) with inFw := f } : State).rxq =
        [0x04, 0x0e, 0x04, 0x01, 0x34, 0x12, 0x00] ++ [0x7e]) ∧
      accepted 0x34 0x12 [0x04, 0x0e, 0x04, 0x01, 0x34, 0x12, 0x00] ∧
      ¬accepted 0x34 0x12 [0x04, 0x0e, 0x04, 0x00, 0x34, 0x12, 0x00] :=
  ⟨fun _ => ⟨rfl, rfl, rfl, rfl⟩, .inr ⟨1, by decide, rfl⟩, by simp [accepted]⟩

/-- V14's answer, and V28's. -/
theorem witness_AnswerIsJudgedByItsFirstViolation :
    (inPhase .rxType (good 0x34 0x12 ++ [0x7e])).phase = .rxType ∧ (inPhase .rxType (good 0x34 0x12 ++ [0x7e])).sched = [] ∧
      (inPhase .rxType (good 0x34 0x12 ++ [0x7e])).rxq = [0x04, 0x0e, 0x04, 0x01, 0x34, 0x12, 0x00] ++ [0x7e] ∧
      verdict 0x34 0x12 0x04 0x0e 0x04 0x01 0x34 0x12 0x00 = (.ok, 0) ∧
      verdict 0x34 0x12 0x04 0x0e 0x04 0x01 0x34 0x12 0x0c = (.nonZeroStatus, 0) := by decide

theorem witness_SendcmdSendsItsFrameAndReportsTheVerdict :
    (start (good 0x34 0x12)).phase = .idle ∧ (start (good 0x34 0x12)).inFw = false ∧ (start (good 0x34 0x12)).linkQuiet ∧
      longest.length ≤ 255 ∧ (start (good 0x34 0x12)).rxq = [0x04, 0x0e, 0x04, 0x01, 0x34, 0x12, 0x00] ++ [] ∧
      ∃ t, exec (.sendcmd 0x1234 longest) (start (good 0x34 0x12)) = .next t :=
  ⟨rfl, rfl, ⟨rfl, rfl⟩, length_longest.le, rfl, _, by
    simp only [exec, execSendcmd, ifIdle, issueIfFits]
    rw [if_neg (by decide), if_pos length_longest.le]⟩

/-- V42. -/
theorem witness_StaleByteIsTakenForTheAnswer :
    (start (0x00 :: good 0x34 0x12)).phase = .idle ∧ (start (0x00 :: good 0x34 0x12)).inFw = false ∧
      (start (0x00 :: good 0x34 0x12)).linkQuiet ∧ ([] : List Byte).length ≤ 255 ∧ (0x00 : Byte) ≠ 0x04 ∧
      (start (0x00 :: good 0x34 0x12)).rxq = 0x00 :: good 0x34 0x12 ∧
      ∃ t, exec (.sendcmd 0x1234 []) (start (0x00 :: good 0x34 0x12)) = .next t :=
  ⟨rfl, rfl, ⟨rfl, rfl⟩, by decide, by decide, rfl, _, rfl⟩

theorem witness_RequestIsImmutableWhileInProgress :
    (inPhase .txType []).phase.inCommand = true ∧ (inPhase .cStatus [0x00]).phase.inCommand = true ∧
      (∀ ts, (inPhase .txType []).sched ≠ .rst :: ts) ∧ ∃ t, step (inPhase .txType []) = .next t :=
  ⟨rfl, rfl, fun _ h => (by cases h), _, rfl⟩

/-- V20: the code goes from the value at reset to 1; V62: from 4 to 11 at the end of a load. -/
theorem witness_ResultRegistersChangeOnlyAtACommandsEnd :
    (inPhase .rxType [0x02]).rcode = 0 ∧ after (step (inPhase .rxType [0x02])) State.rcode = some 1 ∧
      after (step { inPhase .fwSettle [] with inFw := true, rcode := 4, fwCode := .nonZeroStatus }) State.rcode =
        some 11 := by decide

/-- A `WRBYTE` that waits. -/
def waitsToSend : State := { inPhase .tWrbyte [] with txFull := true }
/-- The last payload byte of a command that waits. -/
def waitsInPayload : State := { inPhase .txPayload [] with txFull := true, idx := 254, len := 255 }

theorem witness_WaitIsLiftedOnlyByTheLink :
    ∀ s ∈ [inPhase .rxType [], waitsToSend, waitsInPayload],
      s.waits ∧ (∀ ts, s.sched ≠ .rst :: ts) ∧ (∀ m ts, s.sched ≠ .link m :: ts) ∧ ∃ t, step s = .next t := by
  intro s h
  simp only [List.mem_cons, List.not_mem_nil, or_false] at h
  rcases h with rfl | rfl | rfl
  · exact ⟨.inl ⟨.inl rfl, rfl⟩, fun _ h => (by cases h), fun _ _ h => (by cases h), _, rfl⟩
  · exact ⟨.inr ⟨.inr (.inl rfl), rfl⟩, fun _ h => (by cases h), fun _ _ h => (by cases h), _, rfl⟩
  · exact ⟨.inr ⟨.inr (.inr ⟨rfl, by decide⟩), rfl⟩, fun _ h => (by cases h), fun _ _ h => (by cases h), _, rfl⟩

theorem witness_TransmitStreamIsAppendOnly :
    (∀ ts, (inPhase .txType []).sched ≠ .rst :: ts) ∧
      after (step (inPhase .txType [])) State.txs = some [0x01] := ⟨fun _ h => (by cases h), by decide⟩

theorem witness_ReceiveQueueIsFirstInFirstOut :
    (∀ ts, (inPhase .sStatus [0x12]).sched ≠ .rst :: ts) ∧
      after (step (inPhase .sStatus [0x12])) State.rxq = some [] := ⟨fun _ h => (by cases h), by decide⟩

theorem witness_LogsAndResponsesOnlyGrow :
    (∀ ts, (inPhase .sStatus [0x12]).sched ≠ .rst :: ts) ∧
      after (step (inPhase .sStatus [0x12])) (fun s => (s.logs, s.resps)) =
        some ([.deviceStatus 0x12], [.result 3 0x12]) := ⟨fun _ h => (by cases h), by decide⟩

theorem witness_ParametersAndImageNeverChange : ∃ t, step (start []) = .next t := ⟨_, rfl⟩

/-- V61 and V65. -/
theorem witness_LoadfwIssuesBeginLoadOrRefuses :
    ((start []).phase = .idle ∧ (start []).par.imageWellFormed = true) ∧
      ({ start [] with par := Params.withImage par [0x4c, 0xfc, 0x02, 0xaa] } : State).phase = .idle ∧
      ({ start [] with par := Params.withImage par [0x4c, 0xfc, 0x02, 0xaa] } : State).par.imageWellFormed = false := by
  decide

theorem witness_RecordIsIssuedBetweenCommands :
    longest.length ≤ 255 ∧ (inPhase .fwNext []).phase = .fwNext ∧ (start []).phase ≠ .fwNext :=
  ⟨length_longest.le, rfl, by decide⟩

/-- The cursor at the image's size. -/
theorem witness_LoadEndsAfterTheSettleDelay :
    (inPhase .fwNext []).phase = .fwNext ∧
      ({ inPhase .fwNext [] with cursor := 12 } : State).par.fwSize ≤
        ({ inPhase .fwNext [] with cursor := 12 } : State).cursor.toNat ∧
      (inPhase .fwSettle []).phase = .fwSettle := by decide

theorem par_holdsRecords : holdsRecords par [rec0, rec1, rec2] := by
  refine ⟨by simp [rec0, rec1, rec2], by decide, by decide⟩

/-- V61. -/
theorem witness_LoadOfAGoodImageSendsEveryRecord :
    let s := start (good 0xcd 0xab ++ [good 0x4c 0xfc, good 0x4e 0xfc, good 0x18 0xfc].flatten ++ [0x7e])
    s.phase = .idle ∧ s.linkQuiet ∧ s.par.fwSize < 2 ^ 31 ∧ holdsRecords s.par [rec0, rec1, rec2] ∧
      accepted (s.par.fwBeginOpcode.extractLsb' 0 8) (s.par.fwBeginOpcode.extractLsb' 8 8) (good 0xcd 0xab) ∧
      allAccepted [rec0, rec1, rec2] [good 0x4c 0xfc, good 0x4e 0xfc, good 0x18 0xfc] ∧
      ∃ t, exec .loadfw s = .next t :=
  ⟨rfl, ⟨rfl, rfl⟩, by decide, par_holdsRecords, .inr ⟨1, by decide, by decide⟩,
    ⟨.inr ⟨1, by decide, rfl⟩, .inr ⟨1, by decide, rfl⟩, .inr ⟨1, by decide, rfl⟩, rfl⟩, _, rfl⟩

/-- V62. -/
theorem witness_LoadAbortsAtTheFirstFailingRecord :
    let s := start (good 0xcd 0xab ++ [good 0x4c 0xfc].flatten ++ ([0x04, 0x0e, 0x04, 0x01, 0x4e, 0xfc, 0x0c] ++ []))
    s.phase = .idle ∧ s.linkQuiet ∧ s.par.fwSize < 2 ^ 31 ∧ holdsRecords s.par ([rec0] ++ rec1 :: [rec2]) ∧
      accepted (s.par.fwBeginOpcode.extractLsb' 0 8) (s.par.fwBeginOpcode.extractLsb' 8 8) (good 0xcd 0xab) ∧
      allAccepted [rec0] [good 0x4c 0xfc] ∧ (verdict rec1.lo rec1.hi 0x04 0x0e 0x04 0x01 0x4e 0xfc 0x0c).1 ≠ .ok ∧
      ∃ t, exec .loadfw s = .next t :=
  ⟨rfl, ⟨rfl, rfl⟩, by decide, par_holdsRecords, .inr ⟨1, by decide, by decide⟩, ⟨.inr ⟨1, by decide, rfl⟩, rfl⟩,
    by decide, _, rfl⟩

/-- V63. -/
theorem witness_FailingBeginLoadSendsNoRecord :
    let s := start ([0x04, 0x0f, 0x04, 0x01, 0x00, 0xcd, 0xab] ++ [])
    s.phase = .idle ∧ s.linkQuiet ∧ (∃ t, exec .loadfw s = .next t) ∧
      (verdict 0xcd 0xab 0x04 0x0f 0x04 0x01 0x00 0xcd 0xab).1 ≠ .ok :=
  ⟨rfl, ⟨rfl, rfl⟩, ⟨_, rfl⟩, by decide⟩

/-- A queue of this depth with one byte in it. -/
def depth (d : Nat) : State := { start [0x55] with par := { par with rxqDepth := d } }

/-- A queue with room for exactly seven bytes; and what is delivered and what waits at room 6 and at room 0. -/
theorem witness_EventFramesAreDelivered :
    (depth 8).rxq.length + 7 ≤ (depth 8).par.rxqDepth ∧
      after (exec (.frameEvtStatus 0x34 0x12) (depth 7)) (fun s => (s.rxq, s.sched)) =
        some ([0x55, 0x04, 0x0f, 0x04, 0x00, 0x00, 0x34], [.link (.deliver 0x12)]) ∧
      after (exec (.frameEvtComplete 0x01 0x34 0x12) (depth 1)) (fun s => (s.rxq, s.sched.length)) =
        some ([0x55], 7) := by decide

/-- A queue of depth 1 with a byte in it. -/
def full : State := { start [0x55] with par := { par with rxqDepth := 1 }, sched := [.link (.deliver 4)] }

theorem witness_DeliveryNeedsRoom :
    ({ start [] with sched := [.link (.deliver 4)] } : State).sched = .link (.deliver 4) :: [] ∧
      (start []).rxq.length < (start []).par.rxqDepth ∧ full.sched = .link (.deliver 4) :: [] ∧
      full.par.rxqDepth ≤ full.rxq.length ∧ full.phase = .idle ∧ full.hostq = [] ∧
      (∃ t, step full = .next t) ∧ ∃ t, step { full with phase := .tFlush } = .next t :=
  ⟨rfl, by decide, rfl, by decide, rfl, rfl, ⟨_, rfl⟩, _, rfl⟩

/-- The link raises `tx_full`. -/
theorem witness_OnlyTheLinkMovesTxFull :
    ({ start [] with sched := [.link (.txFull true)] } : State).sched = .link (.txFull true) :: [] ∧
      (start []).txFull = false ∧
      after (step { start [] with sched := [.link (.txFull true)] }) State.txFull = some true := by decide

theorem witness_AclFrameIsSentByteByByte : (start []).phase = .idle ∧ (start []).linkQuiet := ⟨rfl, rfl, rfl⟩

theorem witness_ResetAbandonsTheOperation :
    ({ inPhase .cStatus [] with sched := [.rst] } : State).sched = .rst :: [] := rfl

theorem witness_BaudRateClientSendsTenBytes :
    let s : State := { start (good 0x18 (Config.ogfVendor.setWidth 8 <<< 2) ++ []) with
      hostq := Client.items (Client.setBaudRate 115200) }
    s.phase = .idle ∧ s.inFw = false ∧ s.linkQuiet ∧ s.hostq = Client.items (Client.setBaudRate 115200) ∧
      s.rxq = good 0x18 (Config.ogfVendor.setWidth 8 <<< 2) ++ [] :=
  ⟨rfl, rfl, ⟨rfl, rfl⟩, rfl, rfl⟩

end Sys2Proof.Tests
end

/-! # Proofs about the registers and flags of spec/10_state.md -/

namespace Sys2Proof.Machine

variable {s t : State}

/-! ## The result registers (R30) -/

/-- `RCODE` and `RINFO` stand in `t` as they do in `s`. -/
def SameResult (s t : State) : Prop := t.rcode = s.rcode ∧ t.rinfo = s.rinfo

/-- `return Ok` writes the result registers only outside a load, and then leaves the SPE idle. -/
theorem returnOk_result (s : State) :
    SameResult s (returnOk s) ∨ (s.inFw = false ∧ (returnOk s).phase = .idle) := by
  cases h : s.inFw
  · exact .inr ⟨rfl, by rw [returnOk_outside h, finish_phase]⟩
  · rw [returnOk_inside h]
    exact .inl ⟨rfl, rfl⟩

/-- `raise Fail` writes the result registers only outside a load, and then leaves the SPE idle. -/
theorem raiseFail_result (c : ResultCode) (i : Byte) (s : State) :
    SameResult s (raiseFail c i s) ∨ (s.inFw = false ∧ (raiseFail c i s).phase = .idle) := by
  cases h : s.inFw
  · exact .inr ⟨rfl, by rw [raiseFail_outside h, finish_phase]⟩
  · rw [raiseFail_inside h]
    exact .inl ⟨rfl, rfl⟩

/-- A check of the answer writes the result registers only where it ends a command outside a load. -/
theorem onEventByte_result {p : Phase} (hp : p.receivesEvent = true) (b : Byte) (s : State) :
    SameResult s (onEventByte p b s) ∨ (s.inFw = false ∧ (onEventByte p b s).phase = .idle) := by
  obtain ⟨p', -, he⟩ | he | ⟨c, -, -, he⟩ | ⟨-, he⟩ := onEventByte_cases (s := s) hp b <;> rw [he]
  · exact .inl ⟨rfl, rfl⟩
  · exact returnOk_result s
  · exact raiseFail_result c 0 s
  · exact raiseFail_result .deviceReportedError b (log (.deviceStatus b) s)

/-- A move writes the result registers only with the last byte of an answer outside a load, or with the end of a load's
settle delay (D29); both leave the SPE idle. -/
theorem Move.result (h : Move s t) :
    SameResult s t ∨
      (t.phase = .idle ∧
        ((s.phase.receivesEvent = true ∧ s.inFw = false ∧ s.rxq ≠ []) ∨ s.phase = .fwSettle)) := by
  cases h
  case receive b q hp hq =>
    obtain hsame | ⟨hout, hidle⟩ := onEventByte_result hp b { s with rxq := q }
    · exact .inl hsame
    · exact .inr ⟨hidle, .inl ⟨hp, hout, by simp [hq]⟩⟩
  case settle hp => exact .inr ⟨rfl, .inr hp⟩
  all_goals exact .inl ⟨rfl, rfl⟩

/-- Settles O41: of the steps, a reset is named in the statement, the link's move of `tx_full` writes no register, and
`Move.result` says when a move does. -/
theorem resultRegistersChangeOnlyAtACommandsEnd : Obligations.ResultRegistersChangeOnlyAtACommandsEnd := by
  intro s t h hchange
  have hnot : ¬ SameResult s t := fun ⟨hc, hi⟩ => hchange.elim (· hc) (· hi)
  obtain ⟨ts, hs, rfl⟩ | ⟨v, ts, -, rfl⟩ | ⟨q, ts, hm⟩ := step_move h
  · exact ⟨rfl, .inr (.inr ⟨ts, hs⟩)⟩
  · exact absurd ⟨rfl, rfl⟩ hnot
  · obtain ⟨hidle, hend⟩ := hm.result.resolve_left hnot
    exact ⟨hidle, hend.imp_right .inl⟩

/-! ## The link's flag (R27, R31, R199) -/

/-- The link's move of `tx_full` sets the flag and nothing else. -/
theorem step_link_txFull {v : Bool} {ts : List Turn} (h : s.sched = .link (.txFull v) :: ts) :
    step s = .next { s with txFull := v, sched := ts } := by
  rw [step_link h, linkTurn]

/-- A step that changes `tx_full` is the link's move of it. -/
theorem sched_of_step_txFull_ne (h : step s = .next t) (hne : t.txFull ≠ s.txFull) :
    ∃ ts, s.sched = .link (.txFull t.txFull) :: ts := by
  obtain ⟨ts, -, rfl⟩ | ⟨v, ts, hs, rfl⟩ | ⟨q, ts, hm⟩ := step_move h
  · exact absurd (assertReset_txFull _) hne
  · exact ⟨ts, hs⟩
  · exact absurd hm.txFull hne

/-- Settles O60, by the inversion of a step `step_move` and the frame `Move.txFull` of the moves. -/
theorem onlyTheLinkMovesTxFull : Obligations.OnlyTheLinkMovesTxFull :=
  fun _ => ⟨fun _ _ => step_link_txFull, fun _ => sched_of_step_txFull_ne⟩

end Sys2Proof.Machine

/-! # Proofs about the byte streams and the image of spec/20_memory.md -/

namespace Sys2Proof.Machine

variable {s t : State}

/-! ## What the end of a command and the check of a byte leave unchanged -/

@[simp] theorem returnOk_txs (s : State) : (returnOk s).txs = s.txs := by unfold returnOk; split <;> simp

@[simp] theorem returnOk_par (s : State) : (returnOk s).par = s.par := by unfold returnOk; split <;> simp

@[simp] theorem raiseFail_txs (c : ResultCode) (i : Byte) (s : State) : (raiseFail c i s).txs = s.txs := by
  unfold raiseFail; split <;> simp

@[simp] theorem raiseFail_par (c : ResultCode) (i : Byte) (s : State) : (raiseFail c i s).par = s.par := by
  unfold raiseFail; split <;> simp

/-- The check of a received byte sends nothing. -/
theorem onEventByte_txs {p : Phase} (hp : p.receivesEvent = true) (b : Byte) (s : State) :
    (onEventByte p b s).txs = s.txs := by
  obtain ⟨p', -, he⟩ | he | ⟨c, -, -, he⟩ | ⟨-, he⟩ := onEventByte_cases (s := s) hp b <;> simp [he]

/-- The check of a received byte writes no parameter. -/
theorem onEventByte_par {p : Phase} (hp : p.receivesEvent = true) (b : Byte) (s : State) :
    (onEventByte p b s).par = s.par := by
  obtain ⟨p', -, he⟩ | he | ⟨c, -, -, he⟩ | ⟨-, he⟩ := onEventByte_cases (s := s) hp b <;> simp [he]

/-! ## The transmit stream (R42, R48) -/

/-- A move leaves `TXS`, or appends one byte to it with `tx_full = 0`: the three moves that send are those of the
frame's header, of its payload, and of `WRBYTE`. -/
theorem Move.txs (h : Move s t) : t.txs = s.txs ∨ (s.txFull = false ∧ ∃ b, t.txs = s.txs ++ [b]) := by
  cases h
  case sendHeader b p hp hf hnext => exact .inr ⟨hf, b, rfl⟩
  case sendPayload hi hp hf => exact .inr ⟨hf, s.pb[s.idx.toNat], rfl⟩
  case sent hp hf => exact .inr ⟨hf, s.portByte, rfl⟩
  case receive b q hp hq => exact .inl (onEventByte_txs hp b { s with rxq := q })
  all_goals exact .inl rfl

/-- Settles O43: a reset is excluded, the link's move of `tx_full` sends nothing, and `Move.txs` says what a move
sends. -/
theorem transmitStreamIsAppendOnly : Obligations.TransmitStreamIsAppendOnly := by
  intro s t hrst h
  obtain ⟨ts, hs, -⟩ | ⟨v, ts, -, rfl⟩ | ⟨q, ts, hm⟩ := step_move h
  · exact absurd hs (hrst ts)
  · exact .inl rfl
  · exact hm.txs

/-! ## The parameters and the image (R35, R45, R55) -/

/-- No move writes a parameter. -/
theorem Move.par (h : Move s t) : t.par = s.par := by
  cases h
  case receive b q hp hq => exact onEventByte_par hp b { s with rxq := q }
  all_goals rfl

/-- No step writes a parameter, reset among them. -/
theorem step_par (h : step s = .next t) : t.par = s.par := by
  obtain ⟨ts, -, rfl⟩ | ⟨v, ts, -, rfl⟩ | ⟨q, ts, hm⟩ := step_move h
  · exact assertReset_par _
  · rfl
  · exact hm.par

/-- Settles O46: the image is one of the parameters, and `step_par` says that none changes. -/
theorem parametersAndImageNeverChange : Obligations.ParametersAndImageNeverChange := by
  intro s t h
  have hpar := step_par h
  exact ⟨hpar, fun a => by rw [hpar]⟩

end Sys2Proof.Machine

/-! # Proofs about the encoding of spec/30_encoding.md -/

namespace Sys2Proof

open Machine

/-! ## Frames and records read back (R63, R65, R71) -/

/-- A command frame is read at the offsets of R63's table, whatever follows. -/
theorem decodeTxFrame_command (l h : Byte) {p : List Byte} (hp : p.length ≤ 255) (rest : List Byte) :
    decodeTxFrame (Config.pktCommand :: l :: h :: lenByte p :: (p ++ rest)) =
      .ok (.frameCmd (joinBytes l h) p, rest) :=
  takePayload_append hp rest (.frameCmd (joinBytes l h))

/-- A firmware record is read at the offsets of R65's table, whatever follows. -/
theorem decodeRecord_record (l h : Byte) {p : List Byte} (hp : p.length ≤ 255) (rest : List Byte) :
    decodeRecord (l :: h :: lenByte p :: (p ++ rest)) = .ok (.frameFwrec l h p, rest) :=
  takePayload_append hp rest (.frameFwrec l h)

/-- R65: "A record is the command frame of rule R63 without its packet-type byte." -/
theorem encode_frameCmd_joinBytes (l h : Byte) (p : List Byte) :
    encode (.frameCmd (joinBytes l h) p) = Config.pktCommand :: encode (.frameFwrec l h p) := by
  simp only [encode, lowByte_joinBytes, highByte_joinBytes, List.cons_append]

/-! ## The bytes of a composed opcode (R63, R80) -/

/-- The low byte is `OCF[7:0]`. -/
theorem lowByte_composeOpcode (g : BitVec 6) (c : BitVec 10) :
    lowByte (composeOpcode g c) = c.extractLsb' 0 8 := by
  apply BitVec.eq_of_toNat_eq
  rw [toNat_lowByte, toNat_composeOpcode, BitVec.extractLsb'_toNat, Nat.shiftRight_zero]
  omega

/-- The high byte is `OGF[5:0]` above `OCF[9:8]`. -/
theorem highByte_composeOpcode (g : BitVec 6) (c : BitVec 10) :
    highByte (composeOpcode g c) = g ++ c.extractLsb' 8 2 := by
  apply BitVec.eq_of_toNat_eq
  have hc := c.isLt
  have hlow : (c.extractLsb' 8 2).toNat = c.toNat / 256 := by
    rw [BitVec.extractLsb'_toNat, Nat.shiftRight_eq_div_pow]
    omega
  calc (highByte (composeOpcode g c)).toNat
      = (g.toNat * 1024 + c.toNat) / 256 := by rw [toNat_highByte, toNat_composeOpcode]
    _ = g.toNat * 2 ^ 2 + (c.extractLsb' 8 2).toNat := by omega
    _ = (g ++ c.extractLsb' 8 2).toNat := by
      rw [BitVec.toNat_append, Nat.shiftLeft_eq, mul_comm, Nat.two_pow_add_eq_or_of_lt (BitVec.isLt _)]

/-- Settles O3, from the read-back of both layouts, the encoded lengths of the model's laws and the two bytes of a
composed opcode. -/
theorem framesAreReadAtTheirOffsets : Obligations.FramesAreReadAtTheirOffsets := by
  intro opcode l h p rest hp
  have hfits : payloadFits p = true := payloadFits_iff.mpr hp
  have hframe := decodeTxFrame_command (lowByte opcode) (highByte opcode) hp rest
  rw [joinBytes_low_high] at hframe
  exact ⟨hframe, decodeRecord_record l h hp rest, Laws.EncodedLength.frameCmd opcode p hfits,
    Laws.EncodedLength.frameFwrec l h p hfits, encode_frameCmd_joinBytes l h p,
    fun ogf ocf => ⟨congrArg some (lowByte_composeOpcode ogf ocf), congrArg some (highByte_composeOpcode ogf ocf)⟩⟩

end Sys2Proof

/-! # Proofs about the transport operations of spec/40_transport.md -/

namespace Sys2Proof.Machine

variable {s : State}

/-! ## One step of `T_FLUSH` and one delivery (R76, R199) -/

theorem speStep_flush_empty (hp : s.phase = .tFlush) (hq : s.rxq = []) :
    speStep s = .next (respond .done (goto .idle s)) := by
  simp only [speStep, hp, flushByte, hq]

theorem speStep_flush_cons {c : Byte} {q : List Byte} (hp : s.phase = .tFlush) (hq : s.rxq = c :: q) :
    speStep s = .next { s with rxq := q } := by
  simp only [speStep, hp, flushByte, hq]

theorem step_deliver {b : Byte} {ts : List Turn} (h : s.sched = .link (.deliver b) :: ts)
    (hroom : s.rxq.length < s.par.rxqDepth) : step s = .next { s with rxq := s.rxq ++ [b], sched := ts } := by
  rw [step_link h]
  exact if_pos hroom

/-- Endless traffic delivers its first byte and comes back, turned by one, after a turn of the busy SPE. -/
theorem step_traffic_busy {b : Byte} {bs : List Byte} {ts : List Turn} (h : s.sched = .link (.traffic (b :: bs)) :: ts)
    (hroom : s.rxq.length < s.par.rxqDepth) (hp : s.phase ≠ .idle) :
    step s = .next { s with
      rxq := s.rxq ++ [b]
      sched := .spe :: .link (.traffic (bs ++ [b])) :: ts } := by
  rw [step_link h]
  simp only [linkTurn, if_pos hroom, busy_eq_true.2 hp, if_true]

/-! ## Runs -/

/-- With the link silent, a flush takes one step for each queued byte and one that sees the queue empty (R76). -/
theorem run_flush (hp : s.phase = .tFlush) (hs : s.sched = []) :
    run (s.rxq.length + 1) s = .next (respond .done (goto .idle { s with rxq := [] })) := by
  have hbusy : s.phase ≠ .idle := by simp [hp]
  induction hq : s.rxq generalizing s with
  | nil =>
    rw [List.length_nil, run_succ ((step_quiet hs hbusy).trans (speStep_flush_empty hp hq)), run_zero, ← hq]
  | cons c q ih =>
    rw [List.length_cons, run_succ ((step_quiet hs hbusy).trans (speStep_flush_cons hp hq))]
    exact ih (s := { s with rxq := q }) hp hs hbusy rfl

/-- If every state with `P` steps to a state with `P`, then runs of every length end in one. -/
theorem run_of_invariant {P : State → Prop} (hstep : ∀ s, P s → ∃ t, step s = .next t ∧ P t) (k : Nat) (h : P s) :
    ∃ t, run k s = .next t ∧ P t := by
  induction k generalizing s with
  | zero => exact ⟨s, run_zero, h⟩
  | succ k ih =>
    obtain ⟨u, hu, hPu⟩ := hstep s h
    rw [run_succ hu]
    exact ih hPu

/-! ## A flush under traffic without pause (R76 (c), R197) -/

/-- A flush while the link delivers `b` over and over: the link is about to deliver and there is room, or the SPE is
about to discard a byte, which makes room for the next. The flush never sees the queue empty. -/
inductive FlushesUnderTraffic (b : Byte) (s : State) : Prop where
  /-- The link's turn. -/
  | delivery (hp : s.phase = .tFlush) (hs : s.sched = [.link (.traffic [b])]) (hroom : s.rxq.length < s.par.rxqDepth)
  /-- The SPE's turn. -/
  | discard (c : Byte) (q : List Byte) (hp : s.phase = .tFlush) (hs : s.sched = [.spe, .link (.traffic [b])])
    (hq : s.rxq = c :: q) (hroom : q.length < s.par.rxqDepth)

theorem FlushesUnderTraffic.phase {b : Byte} (h : FlushesUnderTraffic b s) : s.phase = .tFlush := by
  cases h <;> assumption

/-- The link's turn and the SPE's follow each other. -/
theorem FlushesUnderTraffic.step {b : Byte} (h : FlushesUnderTraffic b s) :
    ∃ t, step s = .next t ∧ FlushesUnderTraffic b t := by
  cases h with
  | delivery hp hs hroom =>
    refine ⟨_, step_traffic_busy hs hroom (by simp [hp]), ?_⟩
    cases hq : s.rxq with
    | nil => exact .discard b [] hp rfl rfl (Nat.zero_lt_of_lt hroom)
    | cons c q => exact .discard c (q ++ [b]) hp rfl rfl (by simpa [hq] using hroom)
  | discard c q hp hs hq hroom =>
    exact ⟨_, (step_spe hs).trans (speStep_flush_cons hp hq), .delivery hp rfl hroom⟩

/-! ## Bytes that arrive in time and bytes that do not (R76 (b)) -/

/-- A byte delivered while the flush runs is discarded with the others: one step to deliver it, one for each of the
bytes now queued and one that sees the queue empty. -/
theorem run_flush_deliver {b : Byte} (hp : s.phase = .tFlush) (hs : s.sched = [.link (.deliver b)])
    (hroom : s.rxq.length < s.par.rxqDepth) :
    run (s.rxq.length + 3) s = .next (respond .done (goto .idle { s with rxq := [], sched := [] })) := by
  have hflush := run_flush (s := { s with rxq := s.rxq ++ [b], sched := [] }) hp rfl
  rw [List.length_append] at hflush
  rw [run_succ (step_deliver hs hroom)]
  exact hflush

/-- A byte delivered after the flush has seen the queue empty stays. -/
theorem run_flush_end_deliver {b : Byte} (hp : s.phase = .tFlush) (hq : s.rxq = [])
    (hs : s.sched = [.spe, .link (.deliver b)]) (hroom : s.rxq.length < s.par.rxqDepth) :
    run 2 s = .next (respond .done (goto .idle { s with rxq := [b], sched := [] })) := by
  have hend := (step_spe hs).trans (speStep_flush_empty (s := { s with sched := _ }) hp hq)
  have hdeliver := step_deliver (s := respond .done (goto .idle { s with sched := [.link (.deliver b)] })) rfl hroom
  calc run 2 s
      = run 1 _ := run_succ hend 1
    _ = run 0 _ := run_succ hdeliver 0
    _ = .next (respond .done (goto .idle { s with rxq := [b], sched := [] })) := by
      rw [run_zero, respond_rxq, goto_rxq, hq]
      rfl

/-- Settles O25, from the two runs with one delivery and the invariant of a flush under endless traffic. -/
theorem flushTakesBytesThatArriveInTime : Obligations.FlushTakesBytesThatArriveInTime := by
  intro s b hp hroom
  refine ⟨fun hs => ⟨_, run_flush_deliver hp hs hroom, rfl, rfl⟩,
    fun hq hs => ⟨_, run_flush_end_deliver hp hq hs hroom, rfl, rfl⟩, fun hs k => ?_⟩
  obtain ⟨t, ht, hflush⟩ := run_of_invariant (fun _ => FlushesUnderTraffic.step) k (.delivery hp hs hroom)
  exact ⟨t, ht, hflush.phase⟩

end Sys2Proof.Machine

/-! # Proofs about the command/event engine of spec/42_send_command.md -/

namespace Sys2Proof.Machine

open Sys2Proof.Claims

variable {s : State}

/-! ## One check of the answer (R93 to R104)

Each phase's lemma says what the SPE does with the byte it takes: where the check passes, and where it fails. -/

/-- `raise Fail`, as the claims state it. -/
theorem raiseFail_eq_failed (c : ResultCode) (i : Byte) (s : State) : raiseFail c i s = failed c i s := by
  cases h : s.inFw
  · rw [raiseFail_outside h, failed, if_neg (by simp [h])]
    simp only [finish, respond, h]
  · rw [raiseFail_inside h, failed, if_pos h]
    rfl

/-- `return Ok`, as the claims state it. -/
theorem returnOk_eq_succeeded (s : State) : returnOk s = succeeded s := by
  cases h : s.inFw
  · rw [returnOk_outside h, succeeded, if_neg (by simp [h])]
    simp only [finish, respond, ResultCode.toBits, h]
  · rw [returnOk_inside h, succeeded, if_pos h]
    rfl

section

variable {b : Byte} {q : List Byte} {p p' : Phase} {c : ResultCode} {P : Prop} [Decidable P]

/-- A receive phase takes the oldest byte and checks it. -/
theorem speStep_receive (hp : s.phase = p) (hr : p.receivesEvent = true) (hq : s.rxq = b :: q) :
    speStep s = .next (onEventByte p b { s with rxq := q }) := by
  subst hp
  rw [speStep_receives hr, rxWait_cons hq]

/-- A check that goes on to another phase where it passes. -/
theorem speStep_require (hp : s.phase = p) (hr : p.receivesEvent = true) (hq : s.rxq = b :: q)
    (he : onEventByte p b { s with rxq := q } = require (decide P) p' c { s with rxq := q }) :
    (P → speStep s = .next { s with rxq := q, phase := p' }) ∧
      (¬P → speStep s = .next (failed c 0 { s with rxq := q })) := by
  rw [speStep_receive hp hr hq, he]
  constructor
  · intro h
    rw [require_pass (decide_eq_true h), goto]
  · intro h
    rw [require_fail (decide_eq_false h), raiseFail_eq_failed]

/-- A check that ends the command with `Ok` where it passes. -/
theorem speStep_requireLast (hp : s.phase = p) (hr : p.receivesEvent = true) (hq : s.rxq = b :: q)
    (he : onEventByte p b { s with rxq := q } = requireLast (decide P) c { s with rxq := q }) :
    (P → speStep s = .next (succeeded { s with rxq := q })) ∧
      (¬P → speStep s = .next (failed c 0 { s with rxq := q })) := by
  rw [speStep_receive hp hr hq, he]
  constructor
  · intro h
    rw [requireLast, if_pos (decide_eq_true h), returnOk_eq_succeeded]
  · intro h
    rw [requireLast, if_neg (by simpa using h), raiseFail_eq_failed]

end

section

variable {b : Byte} {q : List Byte}

theorem speStep_rxType (hp : s.phase = .rxType) (hq : s.rxq = b :: q) :
    (b = 0x04 → speStep s = .next { s with rxq := q, phase := .rxCode }) ∧
      (b ≠ 0x04 → speStep s = .next (failed .unexpectedPacketType 0 { s with rxq := q })) :=
  speStep_require hp rfl hq rfl

/-- The event code of the status-style shape (R94). -/
theorem speStep_rxCode_status (hp : s.phase = .rxCode) (hq : s.rxq = b :: q) (hb : b = 0x0f) :
    speStep s = .next { s with rxq := q, phase := .sLen } := by
  rw [speStep_receive hp rfl hq, hb]
  rfl

/-- The event code of the command-complete shape (R94). -/
theorem speStep_rxCode_complete (hp : s.phase = .rxCode) (hq : s.rxq = b :: q) (hb : b = 0x0e) :
    speStep s = .next { s with rxq := q, phase := .cLen } := by
  rw [speStep_receive hp rfl hq, hb]
  rfl

/-- Any other event code (R94). -/
theorem speStep_rxCode_unknown (hp : s.phase = .rxCode) (hq : s.rxq = b :: q) (hf : b ≠ 0x0f) (he : b ≠ 0x0e) :
    speStep s = .next (failed .unknownEventCode 0 { s with rxq := q }) := by
  rw [speStep_receive hp rfl hq, onEventByte, onEventCode, if_neg hf, if_neg he, raiseFail_eq_failed]

theorem speStep_sLen (hp : s.phase = .sLen) (hq : s.rxq = b :: q) :
    (b = 4 → speStep s = .next { s with rxq := q, phase := .sStatus }) ∧
      (b ≠ 4 → speStep s = .next (failed .badParamLength 0 { s with rxq := q })) :=
  speStep_require hp rfl hq rfl

/-- A nonzero status is logged and carried (R96). -/
theorem speStep_sStatus (hp : s.phase = .sStatus) (hq : s.rxq = b :: q) :
    (b = 0 → speStep s = .next { s with rxq := q, phase := .sCount }) ∧
      (b ≠ 0 → speStep s =
        .next (failed .deviceReportedError b { s with rxq := q, logs := s.logs ++ [.deviceStatus b] })) := by
  rw [speStep_receive hp rfl hq, onEventByte, onStatusByte]
  constructor
  · intro h
    rw [if_pos h, goto]
  · intro h
    rw [if_neg h, raiseFail_eq_failed, log]

theorem speStep_sCount (hp : s.phase = .sCount) (hq : s.rxq = b :: q) :
    (b = 0 → speStep s = .next { s with rxq := q, phase := .sEchoLo }) ∧
      (b ≠ 0 → speStep s = .next (failed .badPacketCount 0 { s with rxq := q })) :=
  speStep_require hp rfl hq rfl

theorem speStep_sEchoLo (hp : s.phase = .sEchoLo) (hq : s.rxq = b :: q) :
    (b = s.opLo → speStep s = .next { s with rxq := q, phase := .sEchoHi }) ∧
      (b ≠ s.opLo → speStep s = .next (failed .opcodeEchoMismatchLo 0 { s with rxq := q })) :=
  speStep_require hp rfl hq rfl

theorem speStep_sEchoHi (hp : s.phase = .sEchoHi) (hq : s.rxq = b :: q) :
    (b = s.opHi → speStep s = .next (succeeded { s with rxq := q })) ∧
      (b ≠ s.opHi → speStep s = .next (failed .opcodeEchoMismatchHi 0 { s with rxq := q })) :=
  speStep_requireLast hp rfl hq rfl

theorem speStep_cLen (hp : s.phase = .cLen) (hq : s.rxq = b :: q) :
    (b = 4 → speStep s = .next { s with rxq := q, phase := .cCount }) ∧
      (b ≠ 4 → speStep s = .next (failed .badParamLength2 0 { s with rxq := q })) :=
  speStep_require hp rfl hq rfl

/-- The count is any nonzero byte (R101). -/
theorem speStep_cCount (hp : s.phase = .cCount) (hq : s.rxq = b :: q) :
    (b ≠ 0 → speStep s = .next { s with rxq := q, phase := .cEchoLo }) ∧
      (b = 0 → speStep s = .next (failed .zeroPacketCount 0 { s with rxq := q })) :=
  (speStep_require (P := b ≠ 0) hp rfl hq rfl).imp_right (· ∘ not_not_intro)

theorem speStep_cEchoLo (hp : s.phase = .cEchoLo) (hq : s.rxq = b :: q) :
    (b = s.opLo → speStep s = .next { s with rxq := q, phase := .cEchoHi }) ∧
      (b ≠ s.opLo → speStep s = .next (failed .opcodeEchoMismatchLo2 0 { s with rxq := q })) :=
  speStep_require hp rfl hq rfl

theorem speStep_cEchoHi (hp : s.phase = .cEchoHi) (hq : s.rxq = b :: q) :
    (b = s.opHi → speStep s = .next { s with rxq := q, phase := .cStatus }) ∧
      (b ≠ s.opHi → speStep s = .next (failed .opcodeEchoMismatchHi2 0 { s with rxq := q })) :=
  speStep_require hp rfl hq rfl

theorem speStep_cStatus (hp : s.phase = .cStatus) (hq : s.rxq = b :: q) :
    (b = 0 → speStep s = .next (succeeded { s with rxq := q })) ∧
      (b ≠ 0 → speStep s = .next (failed .nonZeroStatus 0 { s with rxq := q })) :=
  speStep_requireLast hp rfl hq rfl

end

/-- Settles O31: the hold is that of `rxWait`, the checks are those of the two phases. -/
theorem typeAndCodeChecks : Obligations.TypeAndCodeChecks := by
  intro s
  refine ⟨fun hp hq => by rw [speStep_receives hp, rxWait_empty hq], fun b q hq => ?_⟩
  exact ⟨fun hp => (speStep_rxType hp hq).1, fun hp => (speStep_rxType hp hq).2, (speStep_rxCode_status · hq),
    (speStep_rxCode_complete · hq), (speStep_rxCode_unknown · hq)⟩

/-- Settles O32, phase by phase. -/
theorem statusShapeChecks : Obligations.StatusShapeChecks :=
  fun _ _ _ hq => ⟨(speStep_sLen · hq), (speStep_sStatus · hq), (speStep_sCount · hq), (speStep_sEchoLo · hq),
    (speStep_sEchoHi · hq)⟩

/-- Settles O33, phase by phase. -/
theorem completeShapeChecks : Obligations.CompleteShapeChecks :=
  fun _ _ _ hq => ⟨(speStep_cLen · hq), (speStep_cCount · hq), (speStep_cEchoLo · hq), (speStep_cEchoHi · hq),
    (speStep_cStatus · hq)⟩

/-! ## The run over an answer (R106, R164) -/

/-- The end of a command does not depend on the phase it is reached from. -/
theorem ended_phase (v : ResultCode × Byte) (p : Phase) (s : State) : ended v { s with phase := p } = ended v s := by
  unfold ended succeeded failed
  split_ifs <;> rfl

/-- The state as it is in phase `p` with `q` in `RXQ`. -/
def receiving (p : Phase) (q : List Byte) (s : State) : State := { s with rxq := q, phase := p }

/-- In phase `p`, with `k` bytes of the answer taken and `q` still in `RXQ`, the run ends with verdict `v` after the
other bytes of that outcome (R106). -/
def JudgedFrom (p : Phase) (k : Nat) (q : List Byte) (s : State) (v : ResultCode × Byte) : Prop :=
  ∃ n, bytesRemoved v.1 = k + n ∧ run n (receiving p q s) = .next (ended v { s with rxq := q.drop n })

section

variable {b : Byte} {q : List Byte} {p p' : Phase} {k : Nat} {v v' : ResultCode × Byte} {P : Prop} [Decidable P]

/-- A check that passes leaves the verdict to the bytes behind it. -/
theorem JudgedFrom.pass (hs : s.sched = [])
    (hstep : speStep (receiving p (b :: q) s) = .next (receiving p' q s))
    (h : JudgedFrom p' (k + 1) q s v) (hp : p ≠ .idle := by decide) : JudgedFrom p k (b :: q) s v := by
  obtain ⟨n, hn, hrun⟩ := h
  refine ⟨n + 1, by omega, ?_⟩
  rw [run_succ ((step_quiet (s := receiving p (b :: q) s) hs hp).trans hstep), hrun, List.drop_succ_cons]

/-- A check that ends the command gives the verdict. -/
theorem JudgedFrom.last (hs : s.sched = [])
    (hstep : speStep (receiving p (b :: q) s) = .next (ended v (receiving p q s)))
    (hv : bytesRemoved v.1 = k + 1) (hp : p ≠ .idle := by decide) : JudgedFrom p k (b :: q) s v := by
  refine ⟨1, hv, ?_⟩
  rw [run_succ ((step_quiet (s := receiving p (b :: q) s) hs hp).trans hstep), run_zero]
  exact congrArg _ (ended_phase v p { s with rxq := q })

/-- A check that goes on to the next phase or fails. -/
theorem JudgedFrom.check (hs : s.sched = [])
    (hstep : (P → speStep (receiving p (b :: q) s) = .next (receiving p' q s)) ∧
      (¬P → speStep (receiving p (b :: q) s) = .next (ended v' (receiving p q s))))
    (hv : bytesRemoved v'.1 = k + 1) (h : JudgedFrom p' (k + 1) q s v)
    (hp : p ≠ .idle := by decide) : JudgedFrom p k (b :: q) s (if P then v else v') := by
  split_ifs with hP
  · exact .pass hs (hstep.1 hP) h hp
  · exact .last hs (hstep.2 hP) hv hp

/-- The last check of a shape. -/
theorem JudgedFrom.lastCheck (hs : s.sched = [])
    (hstep : (P → speStep (receiving p (b :: q) s) = .next (ended v (receiving p q s))) ∧
      (¬P → speStep (receiving p (b :: q) s) = .next (ended v' (receiving p q s))))
    (hv : bytesRemoved v.1 = k + 1) (hv' : bytesRemoved v'.1 = k + 1)
    (hp : p ≠ .idle := by decide) : JudgedFrom p k (b :: q) s (if P then v else v') := by
  split_ifs with hP
  · exact .last hs (hstep.1 hP) hv hp
  · exact .last hs (hstep.2 hP) hv' hp

end

section

variable {b0 b1 b2 b3 b4 b5 b6 : Byte} {rest : List Byte}

/-- The status-style shape (R95 to R99), once the event code is taken. -/
theorem judged_statusShape (hs : s.sched = []) :
    JudgedFrom .sLen 2 (b2 :: b3 :: b4 :: b5 :: b6 :: rest) s
      (if b2 = 4 then if b3 = 0 then if b4 = 0 then if b5 = s.opLo then if b6 = s.opHi then (.ok, 0)
        else (.opcodeEchoMismatchHi, 0) else (.opcodeEchoMismatchLo, 0) else (.badPacketCount, 0)
        else (.deviceReportedError, b3) else (.badParamLength, 0)) := by
  refine .check hs (speStep_sLen rfl rfl) rfl ?_
  refine .check hs (speStep_sStatus rfl rfl) rfl ?_
  refine .check hs (speStep_sCount rfl rfl) rfl ?_
  refine .check hs (speStep_sEchoLo (s := receiving .sEchoLo _ s) rfl rfl) rfl ?_
  exact .lastCheck hs (speStep_sEchoHi (s := receiving .sEchoHi _ s) rfl rfl) rfl rfl

/-- The command-complete shape (R100 to R104), once the event code is taken. -/
theorem judged_completeShape (hs : s.sched = []) :
    JudgedFrom .cLen 2 (b2 :: b3 :: b4 :: b5 :: b6 :: rest) s
      (if b2 = 4 then if b3 ≠ 0 then if b4 = s.opLo then if b5 = s.opHi then if b6 = 0 then (.ok, 0)
        else (.nonZeroStatus, 0) else (.opcodeEchoMismatchHi2, 0) else (.opcodeEchoMismatchLo2, 0)
        else (.zeroPacketCount, 0) else (.badParamLength2, 0)) := by
  refine .check hs (speStep_cLen rfl rfl) rfl ?_
  refine .check hs ((speStep_cCount rfl rfl).imp_right (· ∘ not_not.1)) rfl ?_
  refine .check hs (speStep_cEchoLo (s := receiving .cEchoLo _ s) rfl rfl) rfl ?_
  refine .check hs (speStep_cEchoHi (s := receiving .cEchoHi _ s) rfl rfl) rfl ?_
  exact .lastCheck hs (speStep_cStatus rfl rfl) rfl rfl

/-- The event code and the shape it chooses (R94). -/
theorem judged_eventCode {v v' : ResultCode × Byte} (hs : s.sched = []) (hstatus : JudgedFrom .sLen 2 rest s v)
    (hcomplete : JudgedFrom .cLen 2 rest s v') :
    JudgedFrom .rxCode 1 (b1 :: rest) s
      (if b1 = 0x0f then v else if b1 = 0x0e then v' else (.unknownEventCode, 0)) := by
  split_ifs with h1 h2
  · exact .pass hs (speStep_rxCode_status rfl rfl h1) hstatus
  · exact .pass hs (speStep_rxCode_complete rfl rfl h2) hcomplete
  · exact .last hs (speStep_rxCode_unknown rfl rfl h1 h2) rfl

/-- From `RX_TYPE` the run ends with the first violated check of the seven bytes (R164). -/
theorem judged_answer (hs : s.sched = []) :
    JudgedFrom .rxType 0 (b0 :: b1 :: b2 :: b3 :: b4 :: b5 :: b6 :: rest) s
      (verdict s.opLo s.opHi b0 b1 b2 b3 b4 b5 b6) := by
  have h : JudgedFrom .rxType 0 (b0 :: b1 :: b2 :: b3 :: b4 :: b5 :: b6 :: rest) s _ :=
    .check (v' := (.unexpectedPacketType, 0)) hs (speStep_rxType rfl rfl) rfl
      (judged_eventCode hs (judged_statusShape hs) (judged_completeShape hs))
  simpa only [verdict, ne_eq, ite_not] using h

/-- The run takes exactly the bytes of its outcome, one step for each (R106, log entry 18). -/
theorem run_answer (hp : s.phase = .rxType) (hs : s.sched = []) (hq : s.rxq = [b0, b1, b2, b3, b4, b5, b6] ++ rest)
    {v : ResultCode × Byte} (hv : v = verdict s.opLo s.opHi b0 b1 b2 b3 b4 b5 b6) :
    run (bytesRemoved v.1) s = .next (ended v { s with rxq := s.rxq.drop (bytesRemoved v.1) }) := by
  have h : JudgedFrom s.phase 0 s.rxq s v := by
    rw [hv, hp, hq]
    exact judged_answer hs
  obtain ⟨n, hn, hrun⟩ := h
  rw [hn, Nat.zero_add]
  exact hrun

/-- The verdict is `Ok` exactly on the two accepted families (R110). -/
theorem verdict_eq_ok_iff (lo hi : Byte) :
    (verdict lo hi b0 b1 b2 b3 b4 b5 b6).1 = .ok ↔ accepted lo hi [b0, b1, b2, b3, b4, b5, b6] := by
  unfold verdict accepted
  split_ifs <;> simp_all

end

theorem bytesRemoved_le (c : ResultCode) : bytesRemoved c ≤ 7 := by cases c <;> decide

theorem ended_of_ok {v : ResultCode × Byte} (h : v.1 = .ok) (s : State) : ended v s = succeeded s := if_pos h

/-- A verdict other than `Ok` fails the command with its code; what it logs first is `DeviceReportedError`'s. -/
theorem ended_of_ne_ok {v : ResultCode × Byte} (h : v.1 ≠ .ok) (s : State) :
    ∃ i es, ended v s = failed v.1 i { s with logs := es } := by
  rw [ended, if_neg h]
  split_ifs
  · exact ⟨v.2, _, rfl⟩
  · exact ⟨0, s.logs, rfl⟩

/-! ## After a failure (R110) -/

/-- What the machine stays in after a command has failed, inside a load or outside, while the link is silent and the
host asks for nothing: a load ends with its settle delay, and then the SPE is idle. -/
inductive AfterFailure (inLoad : Bool) (s : State) : Prop where
  | settling (hload : inLoad = true) (hp : s.phase = .fwSettle) (hs : s.sched = []) (hh : s.hostq = [])
  | idle (hp : s.phase = .idle) (hs : s.sched = []) (hh : s.hostq = []) (hc : inLoad = false → s.rcode ≠ 0)

theorem afterFailure_failed {c : ResultCode} {i : Byte} (hc : c ≠ .ok) (hs : s.sched = []) (hh : s.hostq = []) :
    AfterFailure s.inFw (failed c i s) := by
  unfold failed
  split_ifs with hload
  · exact .settling hload rfl hs hh
  · exact .idle rfl hs hh fun _ h => hc (toBits_injective h)

/-- With nothing scheduled and nothing asked for, an idle machine stays as it is. -/
theorem step_nothing_to_do (hp : s.phase = .idle) (hs : s.sched = []) (hh : s.hostq = []) : step s = .next s := by
  rw [step_nil hs, cooperate_idle hp, hostTurn, hh]

theorem AfterFailure.step {f : Bool} (h : AfterFailure f s) : ∃ t, step s = .next t ∧ AfterFailure f t := by
  cases h with
  | settling hload hp hs hh =>
    refine ⟨endLoad s, ?_, .idle rfl hs hh (by simp [hload])⟩
    rw [step_quiet hs (by simp [hp]), speStep, hp]
  | idle hp hs hh hc => exact ⟨s, step_nothing_to_do hp hs hh, .idle hp hs hh hc⟩

/-- It is not the end of a command with `Ok`. -/
theorem AfterFailure.not_ok {f : Bool} (h : AfterFailure f s) :
    ¬(if f then s.phase = .fwNext ∧ s.fwCode = .ok else s.phase = .idle ∧ s.rcode = 0) := by
  cases h with
  | settling hload hp hs hh => simp [hload, hp]
  | idle hp hs hh hc =>
    split_ifs with hload
    · simp [hp]
    · exact fun ⟨_, h0⟩ => hc (by simpa using hload) h0

/-- A command that ended with `Ok` is between the commands of its load, or idle. -/
theorem succeeded_ok (s : State) :
    if s.inFw then (succeeded s).phase = .fwNext ∧ (succeeded s).fwCode = .ok
      else (succeeded s).phase = .idle ∧ (succeeded s).rcode = 0 := by
  cases h : s.inFw
  · rw [if_neg Bool.false_ne_true, succeeded, if_neg (by simp [h])]
    exact ⟨rfl, rfl⟩
  · rw [if_pos rfl, succeeded, if_pos h]
    exact ⟨rfl, rfl⟩

section

variable {b0 b1 b2 b3 b4 b5 b6 : Byte} {rest : List Byte}

/-- An accepted answer is taken whole and ends the command with `Ok`. -/
theorem run_accepted (hp : s.phase = .rxType) (hs : s.sched = [])
    (hq : s.rxq = [b0, b1, b2, b3, b4, b5, b6] ++ rest)
    (ha : accepted s.opLo s.opHi [b0, b1, b2, b3, b4, b5, b6]) :
    run 7 s = .next (succeeded { s with rxq := rest }) := by
  have hok := (verdict_eq_ok_iff s.opLo s.opHi).2 ha
  have hrun := run_answer hp hs hq rfl
  rw [ended_of_ok hok, hok, hq] at hrun
  exact hrun

/-- After any other answer, and nothing more to do, the machine is where a failure leaves it. -/
theorem run_not_accepted (hp : s.phase = .rxType) (hs : s.sched = []) (hh : s.hostq = [])
    (hq : s.rxq = [b0, b1, b2, b3, b4, b5, b6] ++ rest)
    (ha : ¬accepted s.opLo s.opHi [b0, b1, b2, b3, b4, b5, b6]) :
    ∃ t, run 7 s = .next t ∧ AfterFailure s.inFw t := by
  rw [← verdict_eq_ok_iff] at ha
  have hrun := run_answer hp hs hq rfl
  generalize verdict s.opLo s.opHi b0 b1 b2 b3 b4 b5 b6 = v at ha hrun
  obtain ⟨i, es, he⟩ := ended_of_ne_ok ha { s with rxq := s.rxq.drop (bytesRemoved v.1) }
  obtain ⟨k, hk⟩ := Nat.exists_eq_add_of_le (bytesRemoved_le v.1)
  rw [hk, run_add hrun, he]
  exact run_of_invariant (fun _ => AfterFailure.step) k
    (afterFailure_failed (s := { s with rxq := s.rxq.drop (bytesRemoved v.1), logs := es }) ha hs hh)

end

/-- Settles O36: an accepted answer is run by `run_accepted`; after any other the machine is where a failure leaves it,
which is no end with `Ok`. -/
theorem acceptedAnswersAreExactlyTwoFamilies : Obligations.AcceptedAnswersAreExactlyTwoFamilies := by
  intro s b0 b1 b2 b3 b4 b5 b6 rest hp hs hq
  refine ⟨fun hh => ⟨fun ⟨t, hrun, hok⟩ => ?_, fun ha => ?_⟩, run_accepted hp hs hq⟩
  · by_contra ha
    obtain ⟨u, hu, hfail⟩ := run_not_accepted hp hs hh hq ha
    cases hrun.symm.trans hu
    exact hfail.not_ok hok
  · exact ⟨_, run_accepted hp hs hq ha, succeeded_ok { s with rxq := rest }⟩

end Sys2Proof.Machine

/-! # Proofs about the conversions of spec/44_tick_scaler.md -/

namespace Sys2Proof.Machine

variable {s : State}

/-- `MS2T.S` from an idle SPE: the answer at 8/5 ticks a millisecond, nothing else (R121). -/
theorem exec_ms2tS_idle (h : s.phase = .idle) (ms : Word16) :
    exec (.ms2tS ms) s = .next (respond (tickResponse Config.tickSMul ms) s) :=
  answer_idle h (tickResponse Config.tickSMul ms)

/-- `MS2T.C` from an idle SPE: the answer at 4/5 ticks a millisecond, nothing else (R122). -/
theorem exec_ms2tC_idle (h : s.phase = .idle) (ms : Word16) :
    exec (.ms2tC ms) s = .next (respond (tickResponse Config.tickCMul ms) s) :=
  answer_idle h (tickResponse Config.tickCMul ms)

/-- Settles O18: both conversions answer a `tickResponse`, whose bytes are those of its count whatever the scale, and
`joinBytes_low_high` joins them. -/
theorem tickBytesJoinToTheCount : Obligations.TickBytesJoinToTheCount := by
  intro s ms i hidle hi
  obtain ⟨mul, hexec⟩ : ∃ mul, exec i s = .next (respond (tickResponse mul ms) s) := by
    obtain rfl | rfl := hi
    · exact ⟨Config.tickSMul, exec_ms2tS_idle hidle ms⟩
    · exact ⟨Config.tickCMul, exec_ms2tC_idle hidle ms⟩
  exact ⟨tickCount mul ms, lowByte (tickCount mul ms), highByte (tickCount mul ms), tickOverflow mul ms, hexec,
    rfl, rfl, rfl, rfl, joinBytes_low_high (tickCount mul ms)⟩

end Sys2Proof.Machine

/-! # Proofs about the failures of spec/60_exceptions.md -/

namespace Sys2Proof.Machine

variable {s : State}

/-! ## What a failure records, and what it leaves (R161, R166) -/

/-- The command's operands, its counters, the streams and the parameters stand in `t` as they do in `s` (R161). -/
def SameOperands (s t : State) : Prop :=
  t.opLo = s.opLo ∧ t.opHi = s.opHi ∧ t.len = s.len ∧ t.idx = s.idx ∧ t.pb = s.pb ∧ t.cursor = s.cursor ∧
    t.portByte = s.portByte ∧ t.txs = s.txs ∧ t.txFull = s.txFull ∧ t.rxq = s.rxq ∧ t.par = s.par

/-- From `s`, the failure `(c, i)` is in the result registers of `t` at once, or, inside a load, is written to them by
the next step of the SPE (log entry 13). -/
def RecordsFailure (c : ResultCode) (i : Byte) (s t : State) : Prop :=
  (s.inFw = false → t.rcode = c.toBits ∧ t.rinfo = i ∧ t.fwCode = s.fwCode ∧ t.fwInfo = s.fwInfo) ∧
    (s.inFw = true → t.rcode = s.rcode ∧ t.rinfo = s.rinfo ∧
      ∃ u, speStep t = .next u ∧ u.rcode = c.toBits ∧ u.rinfo = i)

theorem raiseFail_sameOperands (c : ResultCode) (i : Byte) (s : State) : SameOperands s (raiseFail c i s) := by
  cases h : s.inFw
  · rw [raiseFail_outside h]
    simp [SameOperands]
  · rw [raiseFail_inside h]
    simp [SameOperands]

/-- Only the abort of a load logs the code (R132). -/
theorem raiseFail_logs (c : ResultCode) (i : Byte) (s : State) :
    (raiseFail c i s).logs = s.logs ++ (if s.inFw then [.fwAbort c.toBits] else []) := by
  cases h : s.inFw
  · simp [raiseFail_outside h]
  · simp [raiseFail_inside h]

theorem speStep_settle (hp : s.phase = .fwSettle) : speStep s = .next (endLoad s) := by rw [speStep, hp]

/-- Outside a load the registers are written at once; inside one the pair is kept, and `endLoad` writes it. -/
theorem raiseFail_recordsFailure (c : ResultCode) (i : Byte) (s : State) :
    RecordsFailure c i s (raiseFail c i s) := by
  constructor
  · intro h
    rw [raiseFail_outside h]
    exact ⟨rfl, rfl, rfl, rfl⟩
  · intro h
    rw [raiseFail_inside h]
    exact ⟨rfl, rfl, endLoad (abortLoad c i s), speStep_settle (abortLoad_phase s c i), rfl, rfl⟩

/-! ## Which checks fail -/

/-- The command has ended with a code other than `Ok`: the SPE is idle with the code in `RCODE`, or its load settles. -/
def EndsInFailure (s : State) : Prop := (s.phase = .idle ∧ s.rcode ≠ ResultCode.ok.toBits) ∨ s.phase = .fwSettle

theorem not_endsInFailure_goto {p : Phase} (hp : p.receivesEvent = true) : ¬EndsInFailure (goto p s) := by
  rintro (⟨h, -⟩ | h) <;> rw [goto_phase] at h <;> subst h <;> cases hp

theorem not_endsInFailure_returnOk : ¬EndsInFailure (returnOk s) := by
  cases h : s.inFw
  · simp [returnOk_outside h, EndsInFailure]
  · simp [returnOk_inside h, EndsInFailure]

/-- A check that ends the command in failure raises it: with nothing carried, or with the status it has logged (R96). -/
theorem onEventByte_raises {p : Phase} (hp : p.receivesEvent = true) (b : Byte)
    (h : EndsInFailure (onEventByte p b s)) :
    (∃ c, c ≠ .ok ∧ c ≠ .deviceReportedError ∧ onEventByte p b s = raiseFail c 0 s) ∨
      onEventByte p b s = raiseFail .deviceReportedError b (log (.deviceStatus b) s) := by
  obtain ⟨p', hp', he⟩ | he | hfail | ⟨-, he⟩ := onEventByte_cases (s := s) hp b
  · exact absurd (he ▸ h) (not_endsInFailure_goto hp')
  · exact absurd (he ▸ h) not_endsInFailure_returnOk
  · exact .inl hfail
  · exact .inr he

/-- Settles O35: the step takes the byte and checks it, a check that ends the command in failure raises it
(`onEventByte_raises`), and the three lemmas about `raiseFail` say what is then recorded and what stays. -/
theorem failureRecordsItsCodeAndNothingElse : Obligations.FailureRecordsItsCodeAndNothingElse := by
  intro s t b q hp hq hstep hfail
  rw [speStep_receive rfl hp hq] at hstep
  cases hstep
  obtain ⟨c, hok, hdev, he⟩ | he := onEventByte_raises hp b hfail <;> rw [he]
  · exact ⟨raiseFail_sameOperands c 0 _, c, 0, hok, .inr ⟨hdev, rfl, raiseFail_logs c 0 _⟩,
      raiseFail_recordsFailure c 0 { s with rxq := q }⟩
  · exact ⟨raiseFail_sameOperands .deviceReportedError b _, .deviceReportedError, b, by decide,
      .inl ⟨rfl, rfl, raiseFail_logs .deviceReportedError b _⟩,
      raiseFail_recordsFailure .deviceReportedError b (log (.deviceStatus b) { s with rxq := q })⟩

end Sys2Proof.Machine

/-! # Proofs about the round trip of spec/30_encoding.md -/

namespace Sys2Proof

open Machine

/-! ## Operands behind a request's selector (R61, log entry 1) -/

/-- `MKOP` reads its two fields back: the group fits six bits, the command ten. -/
theorem decodeRequest_mkop (ogf : BitVec 6) (ocf : BitVec 10) (rest : List Byte) :
    decodeRequest (encode (.mkop ogf ocf) ++ rest) = .ok (.mkop ogf ocf, rest) := by
  have hgroup : (ogf.setWidth 8).toNat < 64 := by
    rw [BitVec.toNat_setWidth]
    have := ogf.isLt
    omega
  have hhigh : (highByte (ocf.setWidth 16)).toNat < 4 := by
    rw [toNat_highByte, BitVec.toNat_setWidth]
    have := ocf.isLt
    omega
  have hrange : ((ogf.setWidth 8).toNat < 64 && (highByte (ocf.setWidth 16)).toNat < 4) = true := by
    rw [Bool.and_eq_true, decide_eq_true_eq, decide_eq_true_eq]
    exact ⟨hgroup, hhigh⟩
  calc decodeRequest (encode (.mkop ogf ocf) ++ rest)
      = .ok (.mkop ((ogf.setWidth 8).setWidth 6)
          ((joinBytes (lowByte (ocf.setWidth 16)) (highByte (ocf.setWidth 16))).setWidth 10), rest) := if_pos hrange
    _ = .ok (.mkop ogf ocf, rest) := by simp

/-- A 16-bit operand reads back from its two bytes. -/
theorem decodeRequest_word {sel : Byte} {k : Word16 → Instr} (v : Word16) (rest : List Byte)
    (h : ∀ l h r, decodeRequest (sel :: l :: h :: r) = .ok (k (joinBytes l h), r)) :
    decodeRequest (sel :: lowByte v :: highByte v :: rest) = .ok (k v, rest) := by
  rw [h, joinBytes_low_high]

theorem decodeRequest_sendcmd (opcode : Word16) {p : List Byte} (hp : p.length ≤ 255) (rest : List Byte) :
    decodeRequest (encode (.sendcmd opcode p) ++ rest) = .ok (.sendcmd opcode p, rest) := by
  calc decodeRequest (encode (.sendcmd opcode p) ++ rest)
      = takePayload (lenByte p) (p ++ rest) (.sendcmd (joinBytes (lowByte opcode) (highByte opcode))) := rfl
    _ = .ok (.sendcmd opcode p, rest) := by rw [joinBytes_low_high, takePayload_append hp]

/-- An address is its six bytes. -/
theorem address_eta (a : Vector Byte 6) : #v[a[0], a[1], a[2], a[3], a[4], a[5]] = a := by
  ext i hi
  interval_cases i <;> rfl

theorem decodeRequest_swap6 (a : Vector Byte 6) (rest : List Byte) :
    decodeRequest (encode (.swap6 a) ++ rest) = .ok (.swap6 a, rest) := by
  calc decodeRequest (encode (.swap6 a) ++ rest)
      = .ok (.swap6 #v[a[0], a[1], a[2], a[3], a[4], a[5]], rest) := rfl
    _ = .ok (.swap6 a, rest) := by rw [address_eta]

/-! ## Frames (R64, R66) -/

/-- A nonzero count marks the command-complete shape (R64). -/
theorem decodeRxFrame_complete {count : Byte} (hc : count ≠ 0) (l h : Byte) (rest : List Byte) :
    decodeRxFrame (encode (.frameEvtComplete count l h) ++ rest) = .ok (.frameEvtComplete count l h, rest) := by
  show decodeRxFrame (_ :: _ :: _ :: count :: l :: h :: _ :: rest) = _
  rw [decodeRxFrame, if_pos (by decide), if_neg (by simp), if_pos (by simpa using hc)]

/-- The fields of an ACL frame are cut at the open widths (R66, log entry 14). -/
theorem decodeAcl_fields {handle totalLen l2capLen gatt : List Byte} (hh : handle.length = Config.aclHandleBytes)
    (ht : totalLen.length = Config.aclTotalLenBytes) (hl : l2capLen.length = Config.aclL2capLenBytes)
    (hg : gatt.length = 5) (rest : List Byte) :
    decodeAcl (handle ++ (totalLen ++ (l2capLen ++ (aclCidField ++ (gatt ++ rest))))) =
      .ok (.frameAcl handle totalLen l2capLen gatt, rest) := by
  have hcid := length_aclCidField
  simp only [decodeAcl, ← hh, ← ht, ← hl, ← hcid, List.take_left, List.drop_left]
  rw [if_neg (by simp [hg]), if_pos trivial, ← hg, List.take_left, List.drop_left]

/-- Settles O1, row by row: the payloads are read back by `takePayload_append`, the two-byte operands by
`joinBytes_low_high`, the ACL fields by their widths. -/
theorem decodeOfEncodeIsTheInstruction : Obligations.DecodeOfEncodeIsTheInstruction := by
  intro i rest hwf
  cases i with
  | rxrdy | rdbyte | waitrd | flush | loadfw | reservedE | reservedF => rfl
  | wrbyte b => rfl
  | join l h => rfl
  | mkop ogf ocf => exact decodeRequest_mkop ogf ocf rest
  | lo v => exact decodeRequest_word (sel := 0x06) (k := .lo) v rest fun _ _ _ => rfl
  | hi v => exact decodeRequest_word (sel := 0x07) (k := .hi) v rest fun _ _ _ => rfl
  | ms2tS ms => exact decodeRequest_word (sel := 0x0B) (k := .ms2tS) ms rest fun _ _ _ => rfl
  | ms2tC ms => exact decodeRequest_word (sel := 0x0C) (k := .ms2tC) ms rest fun _ _ _ => rfl
  | sendcmd opcode p => exact decodeRequest_sendcmd opcode (payloadFits_iff.1 hwf) rest
  | swap6 a => exact decodeRequest_swap6 a rest
  | frameCmd opcode p =>
    have h := decodeTxFrame_command (lowByte opcode) (highByte opcode) (payloadFits_iff.1 hwf) rest
    rw [joinBytes_low_high] at h
    exact h
  | frameEvtStatus l h => rfl
  | frameEvtComplete count l h => exact decodeRxFrame_complete (of_decide_eq_true hwf) l h rest
  | frameFwrec l h p => exact decodeRecord_record l h (payloadFits_iff.1 hwf) rest
  | frameAcl handle totalLen l2capLen gatt =>
    simp only [Instr.wellFormed, Bool.and_eq_true, decide_eq_true_eq] at hwf
    obtain ⟨hg, hh, ht, hl⟩ := hwf
    have h := decodeAcl_fields hh ht hl hg rest
    rw [encode, List.cons_append, List.append_assoc, List.append_assoc, List.append_assoc, List.append_assoc]
    exact h

/-- A request that can be expressed is decoded from its encoding alone. -/
theorem decode_encode {i : Instr} (h : i.wellFormed = true) : decode i.space (encode i) = .ok (i, []) := by
  simpa using decodeOfEncodeIsTheInstruction i [] h

/-- Settles O2: nine words, read by the decoder. -/
theorem writtenOutWordsDecode : Obligations.WrittenOutWordsDecode := by
  refine ⟨?_, ?_, rfl, rfl, rfl, rfl, rfl, rfl, rfl⟩ <;> decide

end Sys2Proof

/-! # Proofs about one step of an agent: the dispatch of what the host, the image and the link hold -/

namespace Sys2Proof.Machine

variable {s : State} {i : Instr}

/-! ## The host's item (R11, R20) -/

/-- A host's turn runs the instruction of its next item and drops what the item holds behind it (log entry 1). -/
theorem hostTurn_item {item : HostItem} {q : List HostItem} {rest : List Byte} (hq : s.hostq = item :: q)
    (hd : decodeItem item = .ok (i, rest)) : hostTurn s = exec i { s with hostq := q } := by
  simp only [hostTurn, hq, hd]

/-- Settles O8: the turn of the host's and the idle machine with nothing scheduled both make a `hostTurn`. -/
theorem stepRunsTheDecodedRequest : Obligations.StepRunsTheDecodedRequest := by
  intro s bs rest i q hitem
  obtain ⟨item, hd, hq⟩ : ∃ item, decodeItem item = .ok (i, rest) ∧ s.hostq = item :: q :=
    hitem.elim (fun ⟨hd, hq⟩ => ⟨.request bs, hd, hq⟩) fun ⟨hd, hq⟩ => ⟨.frame bs, hd, hq⟩
  refine ⟨fun ts hs => ?_, fun hs hp => ?_⟩
  · rw [step_host hs, hostTurn_item (s := { s with sched := ts }) hq hd]
  · rw [step_nil hs, cooperate_idle hp, hostTurn_item hq hd]

/-- An eight-bit table word that is an instruction is read at the request port. -/
theorem decodeRequest_of_tableWord {w : Nat} (h : decodeTableWord 8 w = some i) :
    ∃ rest, decode .request (tableBytes 8 w) = .ok (i, rest) := by
  unfold decodeTableWord at h
  split at h
  · cases h
    exact ⟨_, ‹_›⟩
  · cases h

/-- Settles O11: the word is placed as the host's next item with the host's turn next. -/
theorem fetchedTableWordRunsNext : Obligations.FetchedTableWordRunsNext := by
  intro s w i h
  obtain ⟨rest, hd⟩ := decodeRequest_of_tableWord h
  exact (stepRunsTheDecodedRequest (s.withFetchWord 8 w) _ rest i s.hostq (.inl ⟨hd, rfl⟩)).1 s.sched rfl

/-! ## The record at the cursor (R131) -/

/-- A whole record is read where its last byte lies inside the image (R45, R48). -/
theorem fetchRecord_inside {p : Params} {c : Nat}
    (h : c + (Config.recHeader + (p.img.read (c + 2)).toNat) ≤ p.fwSize) :
    fetchRecord p c = p.memRead c (Config.recHeader + (p.img.read (c + 2)).toNat) := by
  have hhead : c + Config.recHeader ≤ p.fwSize := by omega
  simp only [fetchRecord, Params.memRead, if_pos hhead]

theorem memRead_inside {p : Params} {c n : Nat} {bs : List Byte} (h : p.memRead c n = some bs) :
    c + n ≤ p.fwSize := by
  by_contra hc
  rw [Params.memRead, if_neg hc] at h
  cases h

/-- Between commands the record at the cursor is run. -/
theorem nextRecord_exec {bs rest : List Byte} (hc : s.cursor.toNat < s.par.fwSize)
    (hm : s.par.memRead s.cursor.toNat (3 + (s.par.img.read (s.cursor.toNat + 2)).toNat) = some bs)
    (hd : decode .image bs = .ok (i, rest)) : nextRecord s = exec i s := by
  rw [nextRecord, if_pos hc, fetchRecord_inside (memRead_inside hm), hm]
  simp only [hd]

theorem speStep_fwNext (hp : s.phase = .fwNext) : speStep s = nextRecord s := by rw [speStep, hp]

/-- Settles O9: in `FW_NEXT` both turns make the step `nextRecord`. -/
theorem stepRunsTheRecordAtTheCursor : Obligations.StepRunsTheRecordAtTheCursor := by
  intro s bs i rest hp hc hm hd
  have hnext : ∀ ts, speStep { s with sched := ts } = exec i { s with sched := ts } := fun ts =>
    (speStep_fwNext (s := { s with sched := ts }) hp).trans (nextRecord_exec (s := { s with sched := ts }) hc hm hd)
  exact ⟨fun hs => (step_quiet hs (by simp [hp])).trans (hnext s.sched), fun ts hs => (step_spe hs).trans (hnext ts)⟩

/-! ## The link's frame (R64, R70) -/

/-- A frame that is an accepted event runs as that instruction. -/
theorem linkTurn_frame_event {bs : List Byte} {ts : List Turn} (hd : decode .rxWire bs = .ok (i, [])) :
    linkTurn (.frame bs) ts s = exec i { s with sched := ts } := by
  simp only [linkTurn, hd]

/-- Any other bytes are delivered as they are. -/
theorem linkTurn_frame_other {bs : List Byte} {ts : List Turn} (hd : ∀ i, decode .rxWire bs ≠ .ok (i, [])) :
    linkTurn (.frame bs) ts s = .next (deliverBytes bs { s with sched := ts }) := by
  rw [linkTurn]
  split
  · exact absurd ‹_› (hd _)
  · rfl

/-- Settles O10: the two kinds of bytes of the link's frame. -/
theorem stepDeliversTheLinksFrame : Obligations.StepDeliversTheLinksFrame := by
  intro s bs ts hs
  rw [step_link hs]
  exact ⟨fun i hd => linkTurn_frame_event hd, fun hd => linkTurn_frame_other hd⟩

/-! ## The link's bytes and `RXQ` (R31, R199) -/

/-- What fits is delivered whole and nothing waits with the link. -/
theorem deliverBytes_fits {bs : List Byte} (h : s.rxq.length + bs.length ≤ s.par.rxqDepth) :
    deliverBytes bs s = { s with rxq := s.rxq ++ bs } := by
  have hroom : bs.length ≤ s.par.rxqDepth - s.rxq.length := by omega
  simp only [deliverBytes, List.take_of_length_le hroom, List.drop_of_length_le hroom, List.map_nil, List.nil_append]

/-- Settles O54: both event frames are delivered as their seven bytes. -/
theorem eventFramesAreDelivered : Obligations.EventFramesAreDelivered :=
  fun _ _ _ _ => ⟨fun hroom => ⟨congrArg _ (deliverBytes_fits hroom), congrArg _ (deliverBytes_fits hroom)⟩, rfl, rfl⟩

/-- Settles O55: with room the byte is appended; without, the step is that of the other agents, who leave the schedule
as it is. -/
theorem deliveryNeedsRoom : Obligations.DeliveryNeedsRoom := by
  intro s b ts hs
  refine ⟨step_deliver hs, fun hfull => ?_⟩
  have hstep := step_deliver_full hs hfull
  refine ⟨hstep, fun t ht => ?_, fun hp hh => ?_⟩
  · rw [cooperate_sched (hstep ▸ ht), hs]
  · rw [hstep, cooperate_idle hp, hostTurn, hh]

/-! ## Reset and what the host reads (R21, R34, R190, R191) -/

/-- Settles O57: `rst` gives the launch state of `assertReset` and keeps the responses and the parameters. -/
theorem resetAbandonsTheOperation : Obligations.ResetAbandonsTheOperation := by
  intro s ts hs
  refine ⟨assertReset { s with sched := ts }, step_rst hs, rfl, rfl, rfl, rfl, rfl, ?_, rfl, rfl⟩
  rw [assertReset_rxq]
  exact List.length_take_le _ _

/-- Settles O4: the launch state takes at most `RXQ_DEPTH` of the stale bytes. -/
theorem launchIsIdleWithEmptyStreams : Obligations.LaunchIsIdleWithEmptyStreams :=
  fun p => ⟨rfl, rfl, rfl, rfl, rfl, List.length_take_le p.rxqDepth (Config.staleRx 0), rfl⟩

/-- Settles O58: `BUSY` is the phase's, the other values are the registers. -/
theorem hostReadsTheRegisters : Obligations.HostReadsTheRegisters := fun _ => rfl

end Sys2Proof.Machine

/-! # Proofs about the operations that answer at once (spec/41, 43, 44) and about requests (spec/30_encoding.md section 4) -/

namespace Sys2Proof.Machine

variable {s : State}

/-! ## Opcodes and bytes (R80 to R84) -/

theorem composeOpcode_eq_ofNat (g : BitVec 6) (c : BitVec 10) :
    composeOpcode g c = BitVec.ofNat 16 (g.toNat * 1024 + c.toNat) := by
  rw [← toNat_composeOpcode, BitVec.ofNat_toNat, BitVec.setWidth_eq]

theorem joinBytes_eq_ofNat (l h : Byte) : joinBytes l h = BitVec.ofNat 16 (h.toNat * 256 + l.toNat) := by
  rw [← toNat_joinBytes, BitVec.ofNat_toNat, BitVec.setWidth_eq]

/-- `OGF` stands in bits 15:10. -/
theorem group_composeOpcode (g : BitVec 6) (c : BitVec 10) : (composeOpcode g c).extractLsb' 10 6 = g := by
  apply BitVec.eq_of_toNat_eq
  have hg := g.isLt
  have hc := c.isLt
  rw [BitVec.extractLsb'_toNat, toNat_composeOpcode, Nat.shiftRight_eq_div_pow]
  omega

/-- `OCF` stands in bits 9:0. -/
theorem command_composeOpcode (g : BitVec 6) (c : BitVec 10) : (composeOpcode g c).extractLsb' 0 10 = c := by
  apply BitVec.eq_of_toNat_eq
  have hc := c.isLt
  rw [BitVec.extractLsb'_toNat, toNat_composeOpcode, Nat.shiftRight_zero]
  omega

/-- Composing opcodes is injective (R84 (c)). -/
theorem composeOpcode_inj {g g' : BitVec 6} {c c' : BitVec 10} (h : composeOpcode g c = composeOpcode g' c') :
    g = g' ∧ c = c' := by
  constructor
  · rw [← group_composeOpcode g c, h, group_composeOpcode]
  · rw [← command_composeOpcode g c, h, command_composeOpcode]

/-- Settles O12: the operation only answers, and both fields stand in their bits. -/
theorem mkopAnswersTheComposedOpcode : Obligations.MkopAnswersTheComposedOpcode := by
  intro s ogf ocf hp
  rw [← composeOpcode_eq_ofNat]
  exact ⟨answer_idle hp _, rfl, group_composeOpcode ogf ocf, command_composeOpcode ogf ocf⟩

/-- Settles O13: the three operations only answer. -/
theorem byteUtilitiesAnswer : Obligations.ByteUtilitiesAnswer := by
  intro s v l h hp
  rw [← joinBytes_eq_ofNat]
  exact ⟨answer_idle hp _, answer_idle hp _, answer_idle hp _⟩

/-- Settles O14, by the read-back of the bytes and of the fields. -/
theorem splitAndJoinAreInverse : Obligations.SplitAndJoinAreInverse :=
  ⟨fun g c => joinBytes_low_high (composeOpcode g c), joinBytes_low_high,
    fun l h => ⟨lowByte_joinBytes l h, highByte_joinBytes l h⟩, fun _ _ _ _ => composeOpcode_inj⟩

/-! ## The address (R115, R116) -/

theorem swapAddress_getElem (a : Vector Byte 6) (i : Fin 6) : (swapAddress a)[i] = a[5 - i.val] := by
  fin_cases i <;> rfl

theorem swapAddress_swapAddress (a : Vector Byte 6) : swapAddress (swapAddress a) = a := address_eta a

/-- Settles O15: the operation only answers the swapped address. -/
theorem swapReversesTheAddress : Obligations.SwapReversesTheAddress :=
  fun _ a hp => ⟨⟨swapAddress a, answer_idle hp _, swapAddress_getElem a⟩, swapAddress_swapAddress a⟩

/-! ## Tick counts (R121 to R125) -/

/-- Settles O16: the answer is the model's count, which is the quotient where that fits. -/
theorem scanTicksAnswer : Obligations.ScanTicksAnswer :=
  fun _ ms hp => ⟨tickCount 8 ms, exec_ms2tS_idle hp ms, toNat_tickCount⟩

/-- Settles O17: a connection count always fits. -/
theorem connectionTicksAnswer : Obligations.ConnectionTicksAnswer := by
  intro s ms hp
  refine ⟨tickCount 4 ms, toNat_tickCount (connection_fits ms), ?_⟩
  rw [exec_ms2tC_idle hp, tickResponse, tickOverflow_eq_false.2 (connection_fits ms)]
  rfl

/-- A count that fits is the truncated quotient: five times it is at most the exact product, and less by less than five
(R125 (a)). -/
theorem tickCount_tight {mul : Nat} {ms : Word16} (h : ms.toNat * mul / 5 < 65536) :
    5 * (tickCount mul ms).toNat ≤ mul * ms.toNat ∧ mul * ms.toNat < 5 * ((tickCount mul ms).toNat + 1) := by
  rw [toNat_tickCount h, mul_comm mul]
  omega

/-- A longer time gives no smaller count (R125 (c)). -/
theorem tickCount_mono {mul : Nat} {m n : Word16} (hmn : m.toNat ≤ n.toNat) (hn : n.toNat * mul / 5 < 65536) :
    (tickCount mul m).toNat ≤ (tickCount mul n).toNat := by
  have hle : m.toNat * mul / 5 ≤ n.toNat * mul / 5 := Nat.div_le_div_right (Nat.mul_le_mul_right mul hmn)
  rw [toNat_tickCount hn, toNat_tickCount (hle.trans_lt hn)]
  exact hle

/-- Settles O19, from the tightness and the monotony of every count that fits. -/
theorem tickCountsAreMonotoneAndTight : Obligations.TickCountsAreMonotoneAndTight := by
  refine ⟨fun ms h => tickCount_tight (tickOverflow_eq_false.1 h), fun ms => tickCount_tight (connection_fits ms),
    fun m n hmn h => tickCount_mono hmn (tickOverflow_eq_false.1 h),
    fun m n hmn => tickCount_mono hmn (connection_fits n), fun ms k hms hk => ⟨?_, ?_⟩⟩
  · rw [toNat_tickCount] <;> omega
  · rw [toNat_tickCount (connection_fits ms)]
    omega

/-! ## Requests to a busy SPE, and reserved selectors (R68) -/

theorem answer_busy (hb : s.busy = true) (r : Response) : answer r s = .refused .busy := ifIdle_busy hb _

/-- A busy SPE refuses every request and every frame for the chip but the reserved selectors, which it refuses too
(R68 (b); log entry 2). -/
theorem exec_busy {i : Instr} (hb : s.busy = true) (hi : i.space = .request ∨ i.space = .txWire)
    (hE : i ≠ .reservedE) (hF : i ≠ .reservedF) : exec i s = .refused .busy := by
  cases i with
  | rxrdy | mkop | lo | hi | join | swap6 | ms2tS | ms2tC => exact answer_busy hb _
  | rdbyte | waitrd | wrbyte | flush | sendcmd | loadfw | frameCmd =>
    simp only [exec, execRdbyte, execWaitrd, execWrbyte, execFlush, execSendcmd, execLoadfw, execFrameCmd,
      ifIdle_busy hb]
  | frameAcl handle totalLen l2capLen gatt =>
    rw [exec, execFrameAcl, execWrbyte]
    generalize wrbyteItems _ ++ s.hostq = q
    exact ifIdle_busy (s := { s with hostq := q }) hb _
  | reservedE => exact absurd rfl hE
  | reservedF => exact absurd rfl hF
  | frameEvtStatus | frameEvtComplete | frameFwrec => simp [Instr.space] at hi

/-- Settles O27: the reserved selectors are refused in every state, all else as `exec_busy` says. -/
theorem everyRequestIsRefusedWhileBusy : Obligations.EveryRequestIsRefusedWhileBusy := by
  intro s i hb hi
  obtain rfl | hE := eq_or_ne i .reservedE
  · exact ⟨_, rfl, fun h => absurd rfl h⟩
  obtain rfl | hF := eq_or_ne i .reservedF
  · exact ⟨_, rfl, fun _ h => absurd rfl h⟩
  exact ⟨.busy, exec_busy hb hi hE hF, fun _ _ => rfl⟩

/-- Settles O26. -/
theorem reservedSelectorsAreRefused : Obligations.ReservedSelectorsAreRefused := fun _ => ⟨rfl, rfl, rfl, rfl⟩

/-! ## The transport operations (R72 to R76) -/

/-- Settles O20: `rx_ready` is whether `RXQ` is not empty. -/
theorem rxrdyAnswersReadiness : Obligations.RxrdyAnswersReadiness := by
  intro s hp
  have hready : s.rxReady = decide (s.rxq ≠ []) := by
    rw [State.rxReady]
    cases s.rxq <;> rfl
  rw [← hready]
  exact answer_idle hp _

/-- Settles O21: an idle SPE admits the request, and the queue has a byte or not. -/
theorem rdbyteTakesTheOldestOrRefuses : Obligations.RdbyteTakesTheOldestOrRefuses := by
  intro s hp
  have hexec : exec .rdbyte s = execRdbyte s := rfl
  rw [hexec, execRdbyte, ifIdle_idle hp]
  exact ⟨fun b q hq => by simp only [hq]; rfl, fun hq => by simp only [hq]⟩

theorem exec_waitrd_idle (h : s.phase = .idle) : exec .waitrd s = .next (goto .tWaitrd s) := by
  rw [exec, execWaitrd, ifIdle_idle h]

theorem exec_wrbyte_idle (h : s.phase = .idle) (b : Byte) :
    exec (.wrbyte b) s = .next (goto .tWrbyte { s with portByte := b }) := by
  rw [exec, execWrbyte, ifIdle_idle h]

theorem exec_flush_idle (h : s.phase = .idle) : exec .flush s = .next (goto .tFlush s) := by
  rw [exec, execFlush, ifIdle_idle h]

theorem speStep_waitrd_empty (hp : s.phase = .tWaitrd) (hq : s.rxq = []) : speStep s = .next s := by
  rw [speStep, hp]
  exact rxWait_empty hq _

theorem speStep_waitrd_cons {b : Byte} {q : List Byte} (hp : s.phase = .tWaitrd) (hq : s.rxq = b :: q) :
    speStep s = .next (respond (.byte b) (goto .idle { s with rxq := q })) := by
  rw [speStep, hp]
  exact rxWait_cons hq _

theorem speStep_wrbyte_full (hp : s.phase = .tWrbyte) (hf : s.txFull = true) : speStep s = .next s := by
  rw [speStep, hp]
  exact txByte_full hf _ _

theorem speStep_wrbyte_free (hp : s.phase = .tWrbyte) (hf : s.txFull = false) :
    speStep s = .next (respond .done (goto .idle { s with txs := s.txs ++ [s.portByte] })) := by
  rw [speStep, hp]
  exact txByte_free hf _ _

/-- Settles O22: the end of the wait leaves the SPE in the phase the request was made in. -/
theorem waitrdHoldsThenTakesTheOldest : Obligations.WaitrdHoldsThenTakesTheOldest := by
  intro s hp
  refine ⟨exec_waitrd_idle hp, fun hq => speStep_waitrd_empty rfl hq, fun b q hq =>
    (speStep_waitrd_cons (s := { s with phase := .tWaitrd }) rfl hq).trans ?_⟩
  simp only [respond, goto, hp]

/-- Settles O23: the end of the wait leaves the SPE in the phase the request was made in. -/
theorem wrbyteHoldsThenSends : Obligations.WrbyteHoldsThenSends := by
  intro s b hp
  refine ⟨exec_wrbyte_idle hp b, fun hf => speStep_wrbyte_full rfl hf, fun hf =>
    (speStep_wrbyte_free (s := { s with phase := .tWrbyte, portByte := b }) rfl hf).trans ?_⟩
  simp only [respond, goto, hp]

/-- Settles O24, by the run of a flush over the queued bytes. -/
theorem flushDrainsTheQueue : Obligations.FlushDrainsTheQueue := by
  intro s hp hs
  refine ⟨exec_flush_idle hp, (run_flush (s := { s with phase := .tFlush }) rfl hs).trans ?_⟩
  simp only [respond, goto, hp]

/-! ## The results' numbers (R160) -/

/-- Settles O34. -/
theorem resultCodesAreNumbered : Obligations.ResultCodesAreNumbered := ⟨fun _ _ => toBits_injective, by decide⟩

end Sys2Proof.Machine

/-! # Proofs about the invariant of spec/10_state.md, spec/20_memory.md and spec/45_fw_sequencer.md -/

namespace Sys2Proof.Machine

variable {s t : State}

/-! ## The kinds of phases exclude each other (R24) -/

theorem Phase.inCommand_exclusive {p : Phase} (h : p.inCommand = true) :
    p.outsideLoad = false ∧ p.betweenCommands = false ∧ p ≠ .fwNext := by
  revert h
  cases p <;> decide

theorem Phase.outsideLoad_exclusive {p : Phase} (h : p.outsideLoad = true) :
    p.inCommand = false ∧ p.sendsHeader = false ∧ p.betweenCommands = false ∧ p ≠ .fwNext ∧ p ≠ .txPayload := by
  revert h
  cases p <;> decide

theorem Phase.inCommand_of_sendsHeader {p : Phase} (h : p.sendsHeader = true) : p.inCommand = true := by
  rw [Phase.inCommand, h]
  rfl

theorem Phase.inCommand_of_receivesEvent {p : Phase} (h : p.receivesEvent = true) : p.inCommand = true := by
  rw [Phase.inCommand, h, Bool.or_true]

theorem Phase.not_sendsHeader_of_receivesEvent {p : Phase} (h : p.receivesEvent = true) :
    p.sendsHeader ≠ true ∧ p ≠ .txPayload := by
  revert h
  cases p <;> decide

/-! ## Updates that keep the invariant -/

/-- The invariant says nothing of the schedule or of the host's list. -/
theorem Inv.withTurn (h : Inv s) (q : List HostItem) (ts : List Turn) : Inv { s with hostq := q, sched := ts } :=
  { h with }

/-- A byte is taken from `RXQ`. -/
theorem Inv.takeByte {b : Byte} {q : List Byte} (h : Inv s) (hq : s.rxq = b :: q) : Inv { s with rxq := q } := by
  have hbound := h.rxqBound
  rw [hq, List.length_cons] at hbound
  exact { h with rxqBound := Nat.le_of_succ_le hbound }

/-- The link delivers no more than fits. -/
theorem Inv.deliverBytes (h : Inv s) (bs : List Byte) : Inv (deliverBytes bs s) := by
  have hbound := h.rxqBound
  refine { h with rxqBound := ?_ }
  rw [deliverBytes_rxq, List.length_append, List.length_take, deliverBytes_par]
  omega

/-- Outside a load the SPE goes from one operation of the transport to another, or ends it. -/
theorem Inv.goto_outsideLoad {p : Phase} (h : Inv s) (hf : s.inFw = false) (hp : p.outsideLoad = true) :
    Inv (goto p s) := by
  obtain ⟨hcmd, hhead, hbetween, hnext, hpayload⟩ := Phase.outsideLoad_exclusive hp
  exact { h with
    nextOk := fun e => absurd e hnext
    idxHeader := fun e => absurd (hhead.symm.trans e) (by decide)
    idxPayload := fun e => absurd e hpayload
    outsideLoad := fun _ => hf
    betweenCommands := fun e => absurd (hbetween.symm.trans e) (by decide)
    cursorTiled := fun e => absurd e hnext
    inFlight := fun _ _ e => absurd (hcmd.symm.trans e) (by decide) }

/-- A command goes on to another of its phases, with `IDX` as that phase asks. -/
theorem Inv.goto_inCommand {p : Phase} {i : Byte} (h : Inv s) (hs : s.phase.inCommand = true) (hp : p.inCommand = true)
    (hi : i.toNat ≤ s.len.toNat) (hhead : p.sendsHeader = true → i = 0)
    (hpayload : p = .txPayload → i.toNat < s.len.toNat) : Inv (goto p { s with idx := i }) := by
  obtain ⟨hout, hbetween, hnext⟩ := Phase.inCommand_exclusive hp
  exact { h with
    nextOk := fun e => absurd e hnext
    idxRange := hi
    idxHeader := hhead
    idxPayload := hpayload
    outsideLoad := fun e => absurd (hout.symm.trans e) (by decide)
    betweenCommands := fun e => absurd (hbetween.symm.trans e) (by decide)
    cursorTiled := fun e => absurd e hnext
    inFlight := fun hf hb _ => h.inFlight hf hb hs }

/-- A command is issued, as one of a load (`f`) and as its begin-load command (`b`), or outside one. -/
theorem Inv.issueCommand {f b : Bool} {l hi : Byte} {p : List Byte} (h : Inv s) (hbegin : b = true → f = true)
    (himage : f = true → s.par.imageWellFormed = true)
    (hrecord : f = true → b = false → (issueCommand l hi p s).recordInFlight) :
    Inv (issueCommand l hi p { s with inFw := f, fwBegin := b }) :=
  { h with
    nextOk := nofun
    idxRange := Nat.zero_le _
    idxHeader := fun _ => rfl
    idxPayload := nofun
    outsideLoad := nofun
    betweenCommands := nofun
    beginInLoad := hbegin
    loadImage := himage
    cursorTiled := nofun
    inFlight := fun hf hb _ => hrecord hf hb }

/-! ## The end of a command -/

/-- A result is written and the SPE is idle. -/
theorem Inv.finish {c : ResultCode} {i : Byte} (h : Inv s) (hb : s.fwBegin = false)
    (hi : i ≠ 0 → c = .deviceReportedError) : Inv (finish c i s) :=
  { h with
    codeRange := toBits_le c
    infoRange := fun hne => congrArg ResultCode.toBits (hi hne)
    nextOk := nofun
    idxHeader := nofun
    idxPayload := nofun
    outsideLoad := fun _ => rfl
    betweenCommands := nofun
    beginInLoad := fun e => absurd (hb.symm.trans e) (by decide)
    loadImage := nofun
    cursorTiled := nofun
    inFlight := nofun }

/-- A load is aborted (R132). -/
theorem Inv.abortLoad {c : ResultCode} {i : Byte} (h : Inv s) (hf : s.inFw = true)
    (hi : i ≠ 0 → c = .deviceReportedError) : Inv (abortLoad c i s) :=
  { h with
    fwInfoRange := hi
    nextOk := nofun
    idxHeader := nofun
    idxPayload := nofun
    outsideLoad := nofun
    betweenCommands := fun _ => ⟨hf, rfl⟩
    beginInLoad := nofun
    cursorTiled := nofun
    inFlight := nofun }

/-- The cursor of a load does not wrap: `FW_SIZE` is below `2^31` (R8, R25). -/
theorem toNat_cursor_advance {c : BitVec 32} {n : Byte} {size : Nat} (hsize : size < 2 ^ 31)
    (h : c.toNat + Config.recHeader + n.toNat ≤ size) :
    (c + BitVec.ofNat 32 Config.recHeader + n.setWidth 32).toNat = c.toNat + Config.recHeader + n.toNat := by
  have hn := n.isLt
  simp only [BitVec.toNat_add, BitVec.toNat_ofNat, BitVec.toNat_setWidth]
  omega

/-- After the begin-load command the cursor is at the first record, after a record's command behind that record. -/
theorem Inv.advanceLoad_tiled (h : Inv s) (hf : s.inFw = true) (hc : s.phase.inCommand = true) :
    ∃ fuel, s.par.tiledFrom fuel (advanceLoad s).cursor.toNat = true := by
  rw [advanceLoad_cursor]
  cases hb : s.fwBegin with
  | true => exact ⟨s.par.fwSize, h.loadImage hf⟩
  | false =>
    obtain ⟨-, -, -, fuel, htiled⟩ := h.inFlight hf hb hc
    obtain ⟨-, hsize, -⟩ := h.params
    refine ⟨fuel, ?_⟩
    rw [if_neg Bool.false_ne_true, toNat_cursor_advance hsize (tiledFrom_le htiled)]
    exact htiled

/-- A command of a load ends with `Ok` (R131). -/
theorem Inv.advanceLoad (h : Inv s) (hf : s.inFw = true) (hc : s.phase.inCommand = true) : Inv (advanceLoad s) :=
  { h with
    fwInfoRange := nofun
    nextOk := fun _ => rfl
    idxHeader := nofun
    idxPayload := nofun
    outsideLoad := nofun
    betweenCommands := fun _ => ⟨hf, rfl⟩
    beginInLoad := nofun
    cursorTiled := fun _ => h.advanceLoad_tiled hf hc
    inFlight := nofun }

/-- Outside a load no begin-load command is in progress. -/
theorem Inv.fwBegin_outside (h : Inv s) (hf : s.inFw = false) : s.fwBegin = false := by
  by_contra hb
  rw [h.beginInLoad (by simpa using hb)] at hf
  cases hf

theorem Inv.returnOk (h : Inv s) (hc : s.phase.inCommand = true) : Inv (returnOk s) := by
  cases hf : s.inFw with
  | true => exact returnOk_inside hf ▸ h.advanceLoad hf hc
  | false => exact returnOk_outside hf ▸ h.finish (h.fwBegin_outside hf) (absurd rfl)

theorem Inv.raiseFail {c : ResultCode} {i : Byte} (h : Inv s) (hi : i ≠ 0 → c = .deviceReportedError) :
    Inv (raiseFail c i s) := by
  cases hf : s.inFw with
  | true => exact raiseFail_inside hf c i ▸ h.abortLoad hf hi
  | false => exact raiseFail_outside hf c i ▸ h.finish (h.fwBegin_outside hf) hi

/-- The check of a received byte goes on with the command or ends it. -/
theorem Inv.onEventByte (h : Inv s) (hp : s.phase.receivesEvent = true) (b : Byte) :
    Inv (onEventByte s.phase b s) := by
  have hc := Phase.inCommand_of_receivesEvent hp
  obtain ⟨p', hp', he⟩ | he | ⟨c, -, -, he⟩ | ⟨-, he⟩ := onEventByte_cases (s := s) hp b <;> rw [he]
  · obtain ⟨hhead, hpayload⟩ := Phase.not_sendsHeader_of_receivesEvent hp'
    exact h.goto_inCommand hc (Phase.inCommand_of_receivesEvent hp') h.idxRange (fun e => absurd e hhead)
      fun e => absurd e hpayload
  · exact h.returnOk hc
  · exact h.raiseFail (absurd rfl)
  · exact Inv.raiseFail (s := log _ s) { h with } fun _ => rfl

/-! ## The steps of the SPE that send a byte, or issue a record -/

/-- One byte of the header is sent: `IDX` is still 0. -/
theorem Inv.sendHeader {b : Byte} {p : Phase} (h : Inv s) (hs : s.phase.sendsHeader = true)
    (hp : p.sendsHeader = true ∨ p = .rxType ∨ (p = .txPayload ∧ 0 < s.len.toNat)) :
    Inv (goto p { s with txs := s.txs ++ [b] }) := by
  have hidx : s.idx = 0 := h.idxHeader hs
  have hcmd : p.inCommand = true := by
    obtain hp | rfl | ⟨rfl, -⟩ := hp
    · exact Phase.inCommand_of_sendsHeader hp
    · rfl
    · rfl
  have hsent : Inv { s with txs := s.txs ++ [b] } := { h with }
  refine hsent.goto_inCommand (Phase.inCommand_of_sendsHeader hs) hcmd h.idxRange (fun _ => hidx) ?_
  rintro rfl
  obtain hp | hp | ⟨-, hlen⟩ := hp
  · cases hp
  · cases hp
  · simpa [hidx] using hlen

theorem toNat_add_one {i : Byte} (h : i.toNat < 255) : (i + 1).toNat = i.toNat + 1 := by bv_omega

/-- One payload byte is sent: `IDX` counts it. -/
theorem Inv.afterPayloadByte (h : Inv s) (hi : s.idx.toNat < 255) (hp : s.phase = .txPayload) (b : Byte) :
    Inv (afterPayloadByte { s with txs := s.txs ++ [b] }) := by
  have hlt := h.idxPayload hp
  have hnext := toNat_add_one hi
  have hsent : Inv { s with txs := s.txs ++ [b] } := { h with }
  have hcmd : s.phase.inCommand = true := by
    rw [hp]
    rfl
  show Inv (goto (if s.idx.toNat + 1 < s.len.toNat then .txPayload else .rxType)
    { s with txs := s.txs ++ [b], idx := s.idx + 1 })
  split
  · refine hsent.goto_inCommand hcmd rfl (hnext.trans_le hlt) nofun fun _ => hnext.trans_lt ‹_›
  · exact hsent.goto_inCommand hcmd rfl (hnext.trans_le hlt) nofun nofun

/-- The record at the cursor is issued; behind it the image is tiled (R131, R133). -/
theorem Inv.issueRecord {p : List Byte} (h : Inv s) (hp : s.phase = .fwNext) (hc : s.cursor.toNat < s.par.fwSize)
    (hl : lenByte p = s.par.img.read (s.cursor.toNat + 2)) :
    Inv (Sys2Proof.Machine.issueCommand (s.par.img.read s.cursor.toNat) (s.par.img.read (s.cursor.toNat + 1)) p s) := by
  obtain ⟨hf, hb⟩ := h.betweenCommands (by rw [hp]; rfl)
  obtain ⟨fuel, htiled⟩ := h.cursorTiled hp
  obtain ⟨fuel', hrest⟩ := tiledFrom_next htiled hc
  refine h.issueCommand (f := s.inFw) (b := s.fwBegin) h.beginInLoad h.loadImage fun _ _ =>
    ⟨rfl, rfl, hl, fuel', ?_⟩
  rw [issueCommand_len, hl]
  exact hrest

/-! ## Every move, every step -/

theorem Inv.inFw_outside {p : Phase} (h : Inv s) (hp : s.phase = p) (hout : p.outsideLoad = true) : s.inFw = false :=
  h.outsideLoad (hp ▸ hout)

/-- Every move keeps the invariant. -/
theorem Move.inv (hm : Move s t) (h : Inv s) : Inv t := by
  cases hm with
  | hold => exact h
  | answer r hp => exact { h with }
  | readByte b q hp hq => exact { h.takeByte hq with }
  | startWait p hp hwait =>
    exact h.goto_outsideLoad (h.inFw_outside hp rfl) (by obtain rfl | rfl := hwait <;> rfl)
  | startSend b q hp =>
    exact Inv.goto_outsideLoad (s := { s with portByte := b, hostq := q }) { h with } (h.inFw_outside hp rfl) rfl
  | startCommand l hi p hp hl =>
    have hf := h.inFw_outside hp rfl
    exact h.issueCommand (f := s.inFw) (b := s.fwBegin) h.beginInLoad h.loadImage fun e => absurd (hf.symm.trans e)
      (by decide)
  | startLoad l hi hp hw => exact h.issueCommand (fun _ => rfl) (fun _ => hw) nofun
  | startRecord p hp hc hl hn => exact h.issueRecord hp hc hn
  | noRecord hp hc =>
    exact { h with
      nextOk := nofun
      idxHeader := nofun
      idxPayload := nofun
      outsideLoad := nofun
      betweenCommands := fun _ => h.betweenCommands (by rw [hp]; rfl)
      cursorTiled := nofun
      inFlight := nofun }
  | settle hp => exact h.finish (h.betweenCommands (by rw [hp]; rfl)).2 h.fwInfoRange
  | sendHeader b p hp hf hnext => exact h.sendHeader hp hnext
  | sendPayload hi hp hf => exact h.afterPayloadByte hi hp _
  | receive b q hp hq => exact (h.takeByte hq).onEventByte hp b
  | waited b q hp hq =>
    exact { (h.takeByte hq).goto_outsideLoad (p := .idle) (h.inFw_outside hp rfl) rfl with }
  | sent hp hf => exact { h.goto_outsideLoad (p := .idle) (h.inFw_outside hp rfl) rfl with }
  | discard b q hp hq => exact h.takeByte hq
  | flushed hp hq => exact { h.goto_outsideLoad (p := .idle) (h.inFw_outside hp rfl) rfl with }
  | deliver bs => exact h.deliverBytes bs

/-- The launch state, with any stale bytes that fit, meets the invariant (R34). -/
theorem resetWith_inv {p : Params} (h : p.wf) : Inv (State.resetWith p) where
  params := h
  rxqBound := List.length_take_le _ _
  codeRange := Nat.zero_le _
  infoRange := absurd rfl
  fwInfoRange := absurd rfl
  nextOk := nofun
  idxRange := le_rfl
  idxHeader := nofun
  idxPayload := nofun
  outsideLoad := fun _ => rfl
  betweenCommands := nofun
  beginInLoad := nofun
  loadImage := nofun
  cursorTiled := nofun
  inFlight := nofun

theorem Inv.assertReset (h : Inv s) : Inv (assertReset s) :=
  { resetWith_inv h.params with rxqBound := List.length_take_le _ _ }

/-- Settles O5: the parameters at `State.reset` are in range. -/
theorem invariantHoldsAtLaunch : Obligations.InvariantHoldsAtLaunch :=
  ⟨fun _ => resetWith_inv, resetWith_inv ⟨Nat.le_add_left _ _, by decide, rfl⟩⟩

/-- Settles O6: a step is a reset, the link's move of `tx_full` or one of the moves (`step_move`), and `Move.inv` says
that each move keeps the invariant. -/
theorem everyStepKeepsTheInvariant : Obligations.EveryStepKeepsTheInvariant := by
  intro s t h hstep
  obtain ⟨ts, -, rfl⟩ | ⟨v, ts, -, rfl⟩ | ⟨q, ts, hm⟩ := step_move hstep
  · exact (h.withTurn s.hostq ts).assertReset
  · exact { h with }
  · exact hm.inv (h.withTurn q ts)

end Sys2Proof.Machine

/-! # Proofs that no state that meets the invariant faults (R26, R45) -/

namespace Sys2Proof.Machine

variable {s t : State} {f : Fault}

/-! ## Operations that cannot fault -/

theorem ifIdle_ne_fault {k : State → Result} (h : k s ≠ .fault f) : ifIdle s k ≠ .fault f := by
  unfold ifIdle
  split
  · nofun
  · exact h

theorem answer_ne_fault (r : Response) : answer r s ≠ .fault f := ifIdle_ne_fault nofun

theorem txByte_ne_fault (b : Byte) (k : State → State) : txByte b k s ≠ .fault f := by
  unfold txByte
  split <;> nofun

theorem rxWait_ne_fault (k : Byte → State → State) : rxWait k s ≠ .fault f := by
  unfold rxWait
  split <;> nofun

theorem issueIfFits_ne_fault (l hi : Byte) (p : List Byte) : issueIfFits l hi p s ≠ .fault f := by
  unfold issueIfFits
  split <;> nofun

/-- No instruction faults: the two faults are the payload step's and the record fetch's. -/
theorem exec_ne_fault (i : Instr) : exec i s ≠ .fault f := by
  cases i with
  | rxrdy | mkop | lo | hi | join | swap6 | ms2tS | ms2tC => exact answer_ne_fault _
  | waitrd | wrbyte | flush | frameAcl =>
    simp only [exec, execWaitrd, execWrbyte, execFlush, execFrameAcl]
    exact ifIdle_ne_fault nofun
  | sendcmd opcode p | frameCmd opcode p => exact ifIdle_ne_fault (issueIfFits_ne_fault _ _ p)
  | rdbyte =>
    rw [exec, execRdbyte]
    refine ifIdle_ne_fault ?_
    split <;> nofun
  | loadfw =>
    rw [exec, execLoadfw]
    refine ifIdle_ne_fault ?_
    split <;> nofun
  | frameFwrec opLo opHi p =>
    rw [exec, execFrameFwrec]
    split
    · exact issueIfFits_ne_fault opLo opHi p
    · nofun
  | reservedE | reservedF | frameEvtStatus | frameEvtComplete => nofun

/-! ## The record at the cursor (R65, R131) -/

/-- The payload bytes of the record that starts at an offset of the image. -/
def recordPayload (p : Params) (c : Nat) : List Byte :=
  (List.range (p.img.read (c + 2)).toNat).map fun i => p.img.read (c + 3 + i)

theorem lenByte_of_length {p : List Byte} {n : Byte} (h : p.length = n.toNat) : lenByte p = n := by
  rw [lenByte, h, BitVec.ofNat_toNat, BitVec.setWidth_eq]

theorem length_recordPayload (p : Params) (c : Nat) : (recordPayload p c).length = (p.img.read (c + 2)).toNat := by
  rw [recordPayload, List.length_map, List.length_range]

/-- A record that lies inside the image is read as its header and its payload. -/
theorem memRead_record {p : Params} {c : Nat} (h : c + (3 + (p.img.read (c + 2)).toNat) ≤ p.fwSize) :
    p.memRead c (3 + (p.img.read (c + 2)).toNat) =
      some (p.img.read c :: p.img.read (c + 1) :: lenByte (recordPayload p c) :: recordPayload p c) := by
  rw [Params.memRead, if_pos h, lenByte_of_length (length_recordPayload p c), recordPayload, List.range_add,
    List.map_append, List.map_map]
  simp only [List.range_succ_eq_map, List.range_zero, List.map_cons, List.map_nil, List.cons_append, List.nil_append,
    Function.comp_def, Nat.add_assoc]
  rfl

/-- Between commands the record at the cursor is issued, where it lies inside the image. -/
theorem nextRecord_record (hin : s.cursor.toNat + (3 + (s.par.img.read (s.cursor.toNat + 2)).toNat) ≤ s.par.fwSize) :
    nextRecord s = exec (.frameFwrec (s.par.img.read s.cursor.toNat) (s.par.img.read (s.cursor.toNat + 1))
      (recordPayload s.par s.cursor.toNat)) s := by
  have hlen : (recordPayload s.par s.cursor.toNat).length ≤ 255 := by
    rw [length_recordPayload]
    exact Nat.le_of_lt_succ (BitVec.isLt _)
  refine nextRecord_exec (rest := []) (by omega) (memRead_record hin) ?_
  have hd := decodeRecord_record (s.par.img.read s.cursor.toNat) (s.par.img.read (s.cursor.toNat + 1)) hlen []
  rwa [List.append_nil] at hd

/-! ## The two guarded accesses (R26, R45) -/

/-- `IDX` is below `LEN`, so it is an index of `PB`. -/
theorem Inv.sendPayloadByte_ne_fault (h : Inv s) (hp : s.phase = .txPayload) : sendPayloadByte s ≠ .fault f := by
  have hlt := h.idxPayload hp
  have hlen := s.len.isLt
  rw [sendPayloadByte, dif_pos (by omega)]
  exact txByte_ne_fault _ _

/-- The cursor is at a record boundary, so the record at it lies inside the image. -/
theorem Inv.nextRecord_ne_fault (h : Inv s) (hp : s.phase = .fwNext) : nextRecord s ≠ .fault f := by
  obtain ⟨fuel, htiled⟩ := h.cursorTiled hp
  by_cases hc : s.cursor.toNat < s.par.fwSize
  · obtain ⟨fuel', hrest⟩ := tiledFrom_next htiled hc
    have hin := tiledFrom_le hrest
    rw [nextRecord_record (by rwa [← Nat.add_assoc])]
    exact exec_ne_fault _
  · rw [nextRecord, if_neg hc]
    nofun

theorem Inv.speStep_ne_fault (h : Inv s) : speStep s ≠ .fault f := by
  by_cases hr : s.phase.receivesEvent = true
  · rw [speStep_receives hr]
    exact rxWait_ne_fault _
  unfold speStep
  cases hp : s.phase with
  | idle | fwSettle => nofun
  | txType | txOpLo | txOpHi | txLen | tWrbyte => exact txByte_ne_fault _ _
  | tWaitrd => exact rxWait_ne_fault _
  | txPayload => exact h.sendPayloadByte_ne_fault hp
  | fwNext => exact h.nextRecord_ne_fault hp
  | tFlush =>
    show flushByte s ≠ _
    unfold flushByte
    split <;> nofun
  | rxType | rxCode | sLen | sStatus | sCount | sEchoLo | sEchoHi | cLen | cCount | cEchoLo | cEchoHi | cStatus =>
    exact absurd (hp ▸ rfl) hr

/-! ## The agents -/

theorem hostTurn_ne_fault : hostTurn s ≠ .fault f := by
  unfold hostTurn
  split
  · nofun
  · split
    · exact exec_ne_fault _
    · nofun

theorem Inv.cooperate_ne_fault (h : Inv s) : cooperate s ≠ .fault f := by
  unfold cooperate
  split
  · exact h.speStep_ne_fault
  · exact hostTurn_ne_fault

theorem Inv.linkTurn_ne_fault (h : Inv s) (m : LinkMove) (ts : List Turn) : linkTurn m ts s ≠ .fault f := by
  unfold linkTurn
  split
  · split
    · nofun
    · exact h.cooperate_ne_fault
  · nofun
  · split
    · nofun
    · exact h.cooperate_ne_fault
  · nofun
  · split
    · exact exec_ne_fault _
    · nofun

/-- Settles O7: only the SPE's steps can fault, and under the invariant neither guarded access is out of range. -/
theorem noFaultUnderTheInvariant : Obligations.NoFaultUnderTheInvariant := by
  intro s f h
  unfold step
  split
  · exact h.cooperate_ne_fault
  · exact (h.withTurn s.hostq _).speStep_ne_fault
  · exact hostTurn_ne_fault
  · exact h.linkTurn_ne_fault _ _
  · nofun

end Sys2Proof.Machine

/-! # Proofs about what every step leaves unchanged (spec/10_state.md, spec/20_memory.md, spec/70_reset_and_hazards.md) -/

namespace Sys2Proof.Machine

variable {s t : State}

/-! ## The latched request (R26, R91) -/

/-- `OPLO`, `OPHI`, `LEN` and `PB` stand in `t` as they do in `s`. -/
def SameRequest (s t : State) : Prop := t.opLo = s.opLo ∧ t.opHi = s.opHi ∧ t.len = s.len ∧ t.pb = s.pb

theorem returnOk_sameRequest (s : State) : SameRequest s (returnOk s) := by
  unfold returnOk
  split <;> exact ⟨rfl, rfl, rfl, rfl⟩

theorem raiseFail_sameRequest (c : ResultCode) (i : Byte) (s : State) : SameRequest s (raiseFail c i s) := by
  unfold raiseFail
  split <;> exact ⟨rfl, rfl, rfl, rfl⟩

theorem onEventByte_sameRequest {p : Phase} (hp : p.receivesEvent = true) (b : Byte) (s : State) :
    SameRequest s (onEventByte p b s) := by
  obtain ⟨p', -, he⟩ | he | ⟨c, -, -, he⟩ | ⟨-, he⟩ := onEventByte_cases (s := s) hp b <;> rw [he]
  · exact ⟨rfl, rfl, rfl, rfl⟩
  · exact returnOk_sameRequest s
  · exact raiseFail_sameRequest c 0 s
  · exact raiseFail_sameRequest .deviceReportedError b (log (.deviceStatus b) s)

/-- Only the issue of a command writes the request, and no command is issued inside another (R52). -/
theorem Move.sameRequest (hm : Move s t) (hc : s.phase.inCommand = true) : SameRequest s t := by
  cases hm
  case startCommand hp _ => exact absurd (hp ▸ hc) (by decide)
  case startLoad hp _ => exact absurd (hp ▸ hc) (by decide)
  case startRecord hp _ _ _ => exact absurd (hp ▸ hc) (by decide)
  case receive b q hp hq => exact onEventByte_sameRequest hp b { s with rxq := q }
  all_goals exact ⟨rfl, rfl, rfl, rfl⟩

/-- Settles O40: a reset is excluded, the link's move of `tx_full` writes no register, and `Move.sameRequest` says what
the moves do. -/
theorem requestIsImmutableWhileInProgress : Obligations.RequestIsImmutableWhileInProgress := by
  intro s t hc hrst h
  obtain ⟨ts, hs, -⟩ | ⟨v, ts, -, rfl⟩ | ⟨q, ts, hm⟩ := step_move h
  · exact absurd hs (hrst ts)
  · exact ⟨rfl, rfl, rfl, rfl⟩
  · exact hm.sameRequest hc

/-! ## The receive queue (R43, R57) -/

@[simp] theorem returnOk_rxq (s : State) : (returnOk s).rxq = s.rxq := by unfold returnOk; split <;> simp

@[simp] theorem raiseFail_rxq (c : ResultCode) (i : Byte) (s : State) : (raiseFail c i s).rxq = s.rxq := by
  unfold raiseFail; split <;> simp

/-- The check of a received byte takes no further byte. -/
theorem onEventByte_rxq {p : Phase} (hp : p.receivesEvent = true) (b : Byte) (s : State) :
    (onEventByte p b s).rxq = s.rxq := by
  obtain ⟨p', -, he⟩ | he | ⟨c, -, -, he⟩ | ⟨-, he⟩ := onEventByte_cases (s := s) hp b <;> simp [he]

/-- A move takes the oldest byte or appends bytes; those that do neither append none. -/
theorem Move.rxq (hm : Move s t) : (∃ b, s.rxq = b :: t.rxq) ∨ ∃ bs, t.rxq = s.rxq ++ bs := by
  cases hm
  case readByte b q hp hq => exact .inl ⟨b, hq⟩
  case waited b q hp hq => exact .inl ⟨b, hq⟩
  case discard b q hp hq => exact .inl ⟨b, hq⟩
  case receive b q hp hq => exact .inl ⟨b, by rw [onEventByte_rxq hp, hq]⟩
  case deliver bs => exact .inr ⟨_, deliverBytes_rxq s bs⟩
  all_goals exact .inr ⟨[], (List.append_nil _).symm⟩

/-- Settles O44: a reset is excluded, the link's move of `tx_full` moves no byte, and `Move.rxq` says what a move does. -/
theorem receiveQueueIsFirstInFirstOut : Obligations.ReceiveQueueIsFirstInFirstOut := by
  intro s t hrst h
  obtain ⟨ts, hs, -⟩ | ⟨v, ts, -, rfl⟩ | ⟨q, ts, hm⟩ := step_move h
  · exact absurd hs (hrst ts)
  · exact .inr ⟨[], (List.append_nil _).symm⟩
  · exact hm.rxq

/-! ## The log stream and the responses (R33, R62) -/

/-- `LOGS` in `t` is that of `s`, with events behind it only where `t` is left by a failing check of `s` (R33): its code
is in `RCODE`, or kept inside a load (log entry 13). -/
def LogsGrow (s t : State) : Prop :=
  ∃ es, t.logs = s.logs ++ es ∧
    (es ≠ [] → s.phase.receivesEvent = true ∧ if s.inFw then t.fwCode ≠ .ok else t.rcode ≠ 0)

theorem logsGrow_of_eq (h : t.logs = s.logs) : LogsGrow s t := ⟨[], by rw [h, List.append_nil], absurd rfl⟩

/-- `raise Fail` leaves its code, which is not that of `Ok`. -/
theorem raiseFail_code {c : ResultCode} (hc : c ≠ .ok) (i : Byte) (s : State) :
    if s.inFw then (raiseFail c i s).fwCode ≠ .ok else (raiseFail c i s).rcode ≠ 0 := by
  cases hf : s.inFw with
  | true => simpa [raiseFail_inside hf] using hc
  | false =>
    rw [raiseFail_outside hf]
    exact fun h => hc (toBits_injective h)

theorem returnOk_logs (s : State) : (returnOk s).logs = s.logs := by
  unfold returnOk
  split <;> rfl

theorem onEventByte_logs (hp : s.phase.receivesEvent = true) (b : Byte) (q : List Byte) :
    LogsGrow s (onEventByte s.phase b { s with rxq := q }) := by
  obtain ⟨p', -, he⟩ | he | ⟨c, hc, -, he⟩ | ⟨-, he⟩ := onEventByte_cases (s := { s with rxq := q }) hp b <;> rw [he]
  · exact logsGrow_of_eq rfl
  · exact logsGrow_of_eq (returnOk_logs _)
  · exact ⟨_, raiseFail_logs c 0 _, fun _ => ⟨hp, raiseFail_code hc 0 { s with rxq := q }⟩⟩
  · refine ⟨_, (raiseFail_logs _ b _).trans (List.append_assoc _ _ _), fun _ => ⟨hp, ?_⟩⟩
    exact raiseFail_code (by decide) b (log (.deviceStatus b) { s with rxq := q })

theorem Move.logs (hm : Move s t) : LogsGrow s t := by
  cases hm
  case receive b q hp hq => exact onEventByte_logs hp b q
  all_goals exact logsGrow_of_eq rfl

/-- The check of a byte gives at most one response: that of the command it ends outside a load. -/
theorem onEventByte_resps {p : Phase} (hp : p.receivesEvent = true) (b : Byte) (s : State) :
    (onEventByte p b s).resps = s.resps ∨ ∃ r, (onEventByte p b s).resps = s.resps ++ [r] := by
  obtain ⟨p', -, he⟩ | he | ⟨c, -, -, he⟩ | ⟨-, he⟩ := onEventByte_cases (s := s) hp b <;> rw [he]
  · exact .inl rfl
  · unfold returnOk
    split
    · exact .inl rfl
    · exact .inr ⟨_, rfl⟩
  all_goals
    unfold raiseFail
    split
    · exact .inl rfl
    · exact .inr ⟨_, rfl⟩

theorem Move.resps (hm : Move s t) : t.resps = s.resps ∨ ∃ r, t.resps = s.resps ++ [r] := by
  cases hm
  case answer r hp => exact .inr ⟨r, rfl⟩
  case readByte b q hp hq => exact .inr ⟨_, rfl⟩
  case settle hp => exact .inr ⟨_, rfl⟩
  case waited b q hp hq => exact .inr ⟨_, rfl⟩
  case sent hp hf => exact .inr ⟨_, rfl⟩
  case flushed hp hq => exact .inr ⟨_, rfl⟩
  case receive b q hp hq => exact onEventByte_resps hp b { s with rxq := q }
  all_goals exact .inl rfl

/-- Settles O45: a reset is excluded, the link's move of `tx_full` logs and answers nothing, and `Move.logs` and
`Move.resps` say what a move does. -/
theorem logsAndResponsesOnlyGrow : Obligations.LogsAndResponsesOnlyGrow := by
  intro s t hrst h
  obtain ⟨ts, hs, -⟩ | ⟨v, ts, -, rfl⟩ | ⟨q, ts, hm⟩ := step_move h
  · exact absurd hs (hrst ts)
  · exact ⟨logsGrow_of_eq rfl, .inl rfl⟩
  · exact ⟨hm.logs, hm.resps⟩

/-! ## Waits (R193) -/

theorem Phase.sendsHeader_cases {p : Phase} (h : p.sendsHeader = true) :
    p = .txType ∨ p = .txOpLo ∨ p = .txOpHi ∨ p = .txLen := by
  revert h
  cases p <;> decide

/-- A header step is a send step. -/
theorem speStep_header (hp : s.phase.sendsHeader = true) : ∃ b k, speStep s = txByte b k s := by
  obtain hp | hp | hp | hp := Phase.sendsHeader_cases hp <;> exact ⟨_, _, by rw [speStep, hp]⟩

/-- A payload step sends `PB[IDX]`. -/
theorem speStep_payload (hp : s.phase = .txPayload) (hi : s.idx.toNat < 255) :
    speStep s = txByte s.pb[s.idx.toNat] afterPayloadByte s := by
  rw [speStep, hp]
  exact dif_pos hi

/-- A step of an SPE that waits is a hold. -/
theorem State.waits.speStep (h : s.waits) : speStep s = .next s := by
  obtain ⟨hp | hp, hq⟩ | ⟨hp | hp | ⟨hp, hi⟩, hf⟩ := h
  · rw [speStep_receives hp, rxWait_empty hq]
  · exact speStep_waitrd_empty hp hq
  · obtain ⟨b, k, he⟩ := speStep_header hp
    rw [he, txByte_full hf]
  · exact speStep_wrbyte_full hp hf
  · rw [speStep_payload hp hi, txByte_full hf]

/-- An SPE that waits is busy (R28). -/
theorem State.waits.busy (h : s.waits) : s.busy = true := by
  rw [busy_eq_true]
  intro hp
  simp [State.waits, hp, Phase.receivesEvent, Phase.sendsHeader] at h

/-- A busy SPE refuses what the host asks for: where the host's turn gives a next state, the host asked for nothing. -/
theorem hostTurn_busy (hb : s.busy = true) (h : hostTurn s = .next t) : t = s := by
  unfold hostTurn at h
  split at h
  · exact (Host.Outcome.next.inj h).symm
  · split at h
    next item q _ _ i _ hd =>
      obtain ⟨r, hr, -⟩ := everyRequestIsRefusedWhileBusy { s with hostq := q } i hb (decodeItem_ok hd)
      rw [hr] at h
      cases h
    next => cases h

/-- Where the link makes no move, an SPE that waits stands still. -/
theorem State.waits.cooperate (h : s.waits) : cooperate s = .next s := by
  rw [cooperate_busy (busy_eq_true.1 h.busy), h.speStep]

/-- An event frame is delivered (R64). -/
theorem exec_event {i : Instr} (hi : i.space = .rxWire) : ∃ bs, exec i s = .next (deliverBytes bs s) := by
  cases i with
  | frameEvtStatus l h => exact ⟨_, rfl⟩
  | frameEvtComplete c l h => exact ⟨_, rfl⟩
  | _ => cases hi

/-- The link moves bytes into `RXQ`, or its own flag: an SPE that waits keeps its phase, and neither sends nor answers. -/
theorem State.waits.linkTurn {m : LinkMove} {ts : List Turn} (h : s.waits) (hm : linkTurn m ts s = .next t) :
    t.phase = s.phase ∧ t.txs = s.txs ∧ t.resps = s.resps := by
  have hdelivers : ∀ bs u, .next (deliverBytes bs { s with sched := ts }) = (.next u : Result) →
      u.phase = s.phase ∧ u.txs = s.txs ∧ u.resps = s.resps := by
    rintro bs u ⟨⟩
    exact ⟨rfl, rfl, rfl⟩
  cases m with
  | deliver b =>
    simp only [Sys2Proof.Machine.linkTurn, h.cooperate] at hm
    split at hm <;> cases hm <;> exact ⟨rfl, rfl, rfl⟩
  | traffic bs =>
    cases bs with
    | nil =>
      cases hm
      exact ⟨rfl, rfl, rfl⟩
    | cons b bs =>
      simp only [Sys2Proof.Machine.linkTurn, h.cooperate] at hm
      split at hm <;> cases hm <;> exact ⟨rfl, rfl, rfl⟩
  | txFull v =>
    cases hm
    exact ⟨rfl, rfl, rfl⟩
  | frame bs =>
    by_cases hd : ∃ i, decode .rxWire bs = .ok (i, [])
    · obtain ⟨i, hd⟩ := hd
      obtain ⟨bs', he⟩ := exec_event (s := { s with sched := ts }) (decodeRxFrame_ok hd)
      rw [linkTurn_frame_event hd, he] at hm
      exact hdelivers bs' t hm
    · rw [linkTurn_frame_other (not_exists.1 hd)] at hm
      exact hdelivers bs t hm

/-- Settles O42: by the agent whose turn it is. The SPE holds, the host is refused or asks for nothing, and the link
changes only its own part. -/
theorem waitIsLiftedOnlyByTheLink : Obligations.WaitIsLiftedOnlyByTheLink := by
  intro s t h hrst hstep
  unfold step at hstep
  split at hstep
  case h_1 =>
    rw [h.cooperate] at hstep
    cases hstep
    exact ⟨rfl, rfl, rfl, fun _ => h, fun _ => rfl⟩
  case h_2 ts hs =>
    have hw : ({ s with sched := ts } : State).waits := h
    rw [hw.speStep] at hstep
    cases hstep
    exact ⟨rfl, rfl, rfl, fun _ => h, fun e => by simp [hs] at e⟩
  case h_3 ts hs =>
    have hw : ({ s with sched := ts } : State).waits := h
    obtain rfl := hostTurn_busy hw.busy hstep
    exact ⟨rfl, rfl, rfl, fun _ => h, fun e => by simp [hs] at e⟩
  case h_4 m ts hs =>
    obtain ⟨hp, htx, hr⟩ := h.linkTurn hstep
    exact ⟨hp, htx, hr, fun e => absurd hs (e m ts), fun e => by simp [hs] at e⟩
  case h_5 ts hs => exact absurd hs (hrst ts)

end Sys2Proof.Machine

/-! # Proofs about whole commands (spec/42_send_command.md) -/

namespace Sys2Proof.Machine

open Sys2Proof.Claims

variable {s t : State}

/-! ## The issue of a command (R91, R130, R131) -/

theorem exec_sendcmd_idle {p : List Byte} (h : s.phase = .idle) (hp : p.length ≤ 255) (opcode : Word16) :
    exec (.sendcmd opcode p) s = .next (issueCommand (lowByte opcode) (highByte opcode) p s) := by
  rw [exec, execSendcmd, ifIdle_idle h, issueIfFits_ok hp]

theorem exec_frameCmd_idle {p : List Byte} (h : s.phase = .idle) (hp : p.length ≤ 255) (opcode : Word16) :
    exec (.frameCmd opcode p) s = .next (issueCommand (lowByte opcode) (highByte opcode) p s) := by
  rw [exec, execFrameCmd, ifIdle_idle h, issueIfFits_ok hp]

theorem exec_loadfw_idle (h : s.phase = .idle) (hw : s.par.imageWellFormed = true) :
    exec .loadfw s = .next (issueCommand (lowByte s.par.fwBeginOpcode) (highByte s.par.fwBeginOpcode) []
      { s with inFw := true, fwBegin := true }) := by
  rw [exec, execLoadfw, ifIdle_idle h, if_pos hw]

theorem exec_loadfw_refused (h : s.phase = .idle) (hw : s.par.imageWellFormed = false) :
    exec .loadfw s = .refused .imageNotWellFormed := by
  rw [exec, execLoadfw, ifIdle_idle h, if_neg (by simp [hw])]

theorem exec_frameFwrec_fwNext {p : List Byte} (h : s.phase = .fwNext) (hp : p.length ≤ 255) (l hi : Byte) :
    exec (.frameFwrec l hi p) s = .next (issueCommand l hi p s) := by
  rw [exec, execFrameFwrec, if_pos h, issueIfFits_ok hp]

/-- Settles O28: both instructions issue the command, whose buffer holds the payload. -/
theorem sendcmdLatchesItsOperands : Obligations.SendcmdLatchesItsOperands := by
  intro s opcode p i hidle hp hi
  refine ⟨loadPayload p s.fresh, loadPayload_getElem p s.fresh, ?_⟩
  obtain rfl | rfl := hi
  · exact exec_sendcmd_idle hidle hp opcode
  · exact exec_frameCmd_idle hidle hp opcode

/-- Settles O47: the check of the image decides. -/
theorem loadfwIssuesBeginLoadOrRefuses : Obligations.LoadfwIssuesBeginLoadOrRefuses :=
  fun s hp => ⟨fun hw => ⟨loadPayload [] s.fresh, exec_loadfw_idle hp hw⟩, exec_loadfw_refused hp⟩

/-- Settles O48: the phase decides. -/
theorem recordIsIssuedBetweenCommands : Obligations.RecordIsIssuedBetweenCommands := by
  intro s lo hi p hp
  refine ⟨fun h => ⟨loadPayload p s.fresh, loadPayload_getElem p s.fresh, exec_frameFwrec_fwNext h hp lo hi⟩,
    fun h => ?_⟩
  rw [exec, execFrameFwrec, if_neg h]

/-- Settles O50: the end of the records and the end of the settle delay. -/
theorem loadEndsAfterTheSettleDelay : Obligations.LoadEndsAfterTheSettleDelay := by
  refine fun s => ⟨fun hp hc => ?_, speStep_settle⟩
  rw [speStep_fwNext hp, nextRecord, if_neg (Nat.not_lt.2 hc)]
  rfl

/-! ## The frame (R73, R92) -/

/-- The state as it is in phase `p` with `tx` sent. -/
def sending (p : Phase) (tx : List Byte) (s : State) : State := { s with txs := tx, phase := p }

theorem eq_sending {p : Phase} (hp : s.phase = p) : s = sending p s.txs s := by rw [sending, ← hp]

section

variable (hf : s.txFull = false) (tx : List Byte)

include hf

theorem speStep_txType : speStep (sending .txType tx s) = .next (sending .txOpLo (tx ++ [0x01]) s) :=
  txByte_free (s := sending .txType tx s) hf Config.pktCommand (goto .txOpLo)

theorem speStep_txOpLo : speStep (sending .txOpLo tx s) = .next (sending .txOpHi (tx ++ [s.opLo]) s) :=
  txByte_free (s := sending .txOpLo tx s) hf s.opLo (goto .txOpHi)

theorem speStep_txOpHi : speStep (sending .txOpHi tx s) = .next (sending .txLen (tx ++ [s.opHi]) s) :=
  txByte_free (s := sending .txOpHi tx s) hf s.opHi (goto .txLen)

theorem speStep_txLen : speStep (sending .txLen tx s) =
    .next (sending (if 0 < s.len.toNat then .txPayload else .rxType) (tx ++ [s.len]) s) :=
  txByte_free (s := sending .txLen tx s) hf s.len afterLength

end

theorem toNat_pos_iff {b : Byte} : 0 < b.toNat ↔ b ≠ 0 := by
  rw [Nat.pos_iff_ne_zero, ne_eq, ne_eq, BitVec.toNat_eq]
  rfl

/-- Settles O29: the hold is that of `txByte`, the bytes are those of the four phases. -/
theorem headerStepsSendOneByte : Obligations.HeaderStepsSendOneByte := by
  intro s hp
  refine ⟨fun hf => ?_, fun hf => ⟨fun h => ?_, fun h => ?_, fun h => ?_, fun h hn => ?_, fun h hn => ?_⟩⟩
  · obtain ⟨b, k, he⟩ := speStep_header hp
    rw [he, txByte_full hf]
  · exact (congrArg speStep (eq_sending h)).trans (speStep_txType hf s.txs)
  · exact (congrArg speStep (eq_sending h)).trans (speStep_txOpLo hf s.txs)
  · exact (congrArg speStep (eq_sending h)).trans (speStep_txOpHi hf s.txs)
  · have hstep := (congrArg speStep (eq_sending h)).trans (speStep_txLen hf s.txs)
    rwa [if_pos (toNat_pos_iff.2 hn)] at hstep
  · have hstep := (congrArg speStep (eq_sending h)).trans (speStep_txLen hf s.txs)
    rwa [if_neg (not_not_intro hn ∘ toNat_pos_iff.1)] at hstep

/-- Settles O30: a payload step is a send step of `PB[IDX]`. -/
theorem payloadStepSendsTheByteAtIdx : Obligations.PayloadStepSendsTheByteAtIdx := by
  intro s hi hp
  rw [speStep_payload hp hi]
  exact ⟨fun hf => txByte_full hf _ _, fun hf => txByte_free hf _ _⟩

/-- With the link quiet, a run of a busy SPE starts with a step of it. -/
theorem run_speStep (hq : s.linkQuiet) (hp : s.phase ≠ .idle) (hstep : speStep s = .next t) (k : Nat) :
    run (k + 1) s = run k t := run_succ ((step_quiet hq.1 hp).trans hstep) k

/-- A send step on a quiet link. -/
theorem run_send {p p' : Phase} {tx tx' : List Byte} (hq : s.linkQuiet)
    (hstep : speStep (sending p tx s) = .next (sending p' tx' s)) (hp : p ≠ .idle) (k : Nat) :
    run (k + 1) (sending p tx s) = run k (sending p' tx' s) := run_speStep (s := sending p tx s) hq hp hstep k

/-- The four header steps (R63, R92). -/
theorem run_header (hp : s.phase = .txType) (hq : s.linkQuiet) :
    run 4 s = .next (sending (if 0 < s.len.toNat then .txPayload else .rxType)
      (s.txs ++ [0x01, s.opLo, s.opHi, s.len]) s) := by
  calc run 4 s
      = run 4 (sending .txType s.txs s) := congrArg (run 4) (eq_sending hp)
    _ = run 3 (sending .txOpLo (s.txs ++ [0x01]) s) := run_send hq (speStep_txType hq.2 _) (by decide) 3
    _ = run 2 (sending .txOpHi _ s) := run_send hq (speStep_txOpLo hq.2 _) (by decide) 2
    _ = run 1 (sending .txLen _ s) := run_send hq (speStep_txOpHi hq.2 _) (by decide) 1
    _ = run 0 (sending _ _ s) := run_send hq (speStep_txLen hq.2 _) (by decide) 0
    _ = _ := by simp only [run_zero, List.append_assoc, List.cons_append, List.nil_append]

/-- One payload step on a quiet link. -/
theorem run_payloadByte (hp : s.phase = .txPayload) (hq : s.linkQuiet) (hi : s.idx.toNat < 255) (k : Nat) :
    run (k + 1) s = run k (sending (if s.idx.toNat + 1 < s.len.toNat then .txPayload else .rxType)
      (s.txs ++ [s.pb[s.idx.toNat]]) { s with idx := s.idx + 1 }) :=
  run_speStep hq (by simp [hp]) ((speStep_payload hp hi).trans (txByte_free hq.2 _ _)) k

theorem drop_payloadBuffer {v : Vector Byte 255} {i n : Nat} (hi : i < 255) :
    (v.toList.drop i).take (n + 1) = v[i] :: (v.toList.drop (i + 1)).take n := by
  rw [List.drop_eq_getElem_cons (by simpa using hi), Vector.getElem_toList, List.take_succ_cons]

theorem idx_lt_pbSize {len idx : Byte} {n : Nat} (h : len.toNat = idx.toNat + (n + 1)) : idx.toNat < 255 := by
  have hlen := len.isLt
  omega

/-- The payload steps from `IDX` on (R23, R92). -/
theorem run_payload {n : Nat} (hp : s.phase = .txPayload) (hq : s.linkQuiet)
    (hn : s.len.toNat = s.idx.toNat + (n + 1)) :
    run (n + 1) s = .next (sending .rxType (s.txs ++ (s.pb.toList.drop s.idx.toNat).take (n + 1))
      { s with idx := s.len }) := by
  induction n generalizing s with
  | zero =>
    have hi := idx_lt_pbSize hn
    have hlast : s.idx + 1 = s.len := BitVec.eq_of_toNat_eq ((toNat_add_one hi).trans hn.symm)
    rw [run_payloadByte hp hq hi, drop_payloadBuffer hi, run_zero, if_neg (by omega), hlast, List.take_zero]
  | succ n ih =>
    have hi := idx_lt_pbSize hn
    have hnext := toNat_add_one hi
    have hrest := ih (s := sending .txPayload (s.txs ++ [s.pb[s.idx.toNat]]) { s with idx := s.idx + 1 }) rfl hq
      (by show s.len.toNat = (s.idx + 1).toNat + (n + 1); omega)
    rw [run_payloadByte hp hq hi, drop_payloadBuffer hi, if_pos (by omega), hrest]
    simp only [sending, hnext, List.append_assoc, List.cons_append, List.nil_append]

/-! ## A command on a quiet link (R90 to R105) -/

/-- The command's frame has been sent and its answer is awaited. -/
def awaitingAnswer (lo hi : Byte) (p : List Byte) (s : State) : State :=
  sending .rxType (s.txs ++ frameBytes lo hi p) { issueCommand lo hi p s with idx := lenByte p }

theorem take_loadPayload {p : List Byte} (hp : p.length ≤ 255) (k : Nat) :
    (loadPayload p k).toList.take p.length = p := by
  refine List.ext_getElem (by simpa using hp) fun i h h' => ?_
  rw [List.getElem_take, Vector.getElem_toList, loadPayload_getElem p k i h' (by omega)]

/-- A command sends exactly its frame (R63, R92). -/
theorem run_issueCommand {p : List Byte} (hq : s.linkQuiet) (hp : p.length ≤ 255) (lo hi : Byte) :
    run (4 + p.length) (issueCommand lo hi p s) = .next (awaitingAnswer lo hi p s) := by
  have hlen := toNat_lenByte hp
  have hheader := run_header (s := issueCommand lo hi p s) rfl hq
  rw [run_add hheader, issueCommand_len, hlen]
  cases hn : p.length with
  | zero =>
    obtain rfl := List.length_eq_zero_iff.1 hn
    rfl
  | succ n =>
    rw [if_pos (Nat.succ_pos n)]
    have hpayload := take_loadPayload hp s.fresh
    have hidx : p.length = (0 : Byte).toNat + (n + 1) := hn.trans (Nat.zero_add _).symm
    rw [run_payload (s := sending .txPayload _ (issueCommand lo hi p s)) rfl hq (hlen.trans hidx)]
    rw [hn] at hpayload
    simp [sending, awaitingAnswer, frameBytes, hpayload, lenByte]

/-- A value is carried for `DeviceReportedError` only (R161). -/
def CarriesStatusOnly (v : ResultCode × Byte) : Prop := v.1 ≠ .deviceReportedError → v.2 = 0

theorem CarriesStatusOnly.ite {P : Prop} [Decidable P] {v w : ResultCode × Byte} (hv : CarriesStatusOnly v)
    (hw : CarriesStatusOnly w) : CarriesStatusOnly (if P then v else w) := by
  split
  · exact hv
  · exact hw

theorem verdict_carriesStatusOnly (lo hi b0 b1 b2 b3 b4 b5 b6 : Byte) :
    CarriesStatusOnly (verdict lo hi b0 b1 b2 b3 b4 b5 b6) := by
  have hnone : ∀ c, CarriesStatusOnly (c, 0) := fun _ _ => rfl
  have hstatus : CarriesStatusOnly (.deviceReportedError, b3) := absurd rfl
  unfold verdict
  repeat' apply CarriesStatusOnly.ite
  all_goals first | exact hnone _ | exact hstatus

/-- What a verdict logs: the status that is carried (R33, R96). -/
def loggedStatus (v : ResultCode × Byte) : List LogEvent :=
  if v.1 = .deviceReportedError then [.deviceStatus v.2] else []

/-- A verdict other than `Ok` fails the command with its code and its carried value, the status logged. -/
theorem ended_failed {v : ResultCode × Byte} (hok : v.1 ≠ .ok) (hv : CarriesStatusOnly v)
    (s : State) : ended v s = failed v.1 v.2 { s with logs := s.logs ++ loggedStatus v } := by
  rw [ended, if_neg hok, loggedStatus]
  split
  · rfl
  · rw [List.append_nil, hv ‹_›]

/-- Outside a load a command ends with its verdict in the registers and the response, and an idle SPE (R105). -/
theorem ended_outside {v : ResultCode × Byte} (hf : s.inFw = false) (hv : CarriesStatusOnly v) :
    ended v s = { s with
      rcode := v.1.toBits, rinfo := v.2, phase := .idle, resps := s.resps ++ [.result v.1.toBits v.2]
      logs := s.logs ++ loggedStatus v } := by
  by_cases hok : v.1 = .ok
  · have hinfo : v.2 = 0 := hv (by simp [hok])
    rw [ended_of_ok hok, succeeded, if_neg (by simp [hf]), loggedStatus, if_neg (by simp [hok]), hok, hinfo,
      List.append_nil]
    rfl
  · rw [ended_failed hok hv, failed, if_neg (by simp [hf])]

/-- Inside a load a failing verdict is kept and logged, and the load settles (R132; log entry 13). -/
theorem ended_inside {v : ResultCode × Byte} (hf : s.inFw = true) (hok : v.1 ≠ .ok)
    (hv : CarriesStatusOnly v) :
    ended v s = { s with
      fwCode := v.1, fwInfo := v.2, phase := .fwSettle, fwBegin := false
      logs := s.logs ++ loggedStatus v ++ [.fwAbort v.1.toBits] } := by
  rw [ended_failed hok hv, failed, if_pos hf]

/-- Settles O37, by the run over an answer. -/
theorem answerIsJudgedByItsFirstViolation : Obligations.AnswerIsJudgedByItsFirstViolation :=
  fun _ _ _ _ _ _ _ _ _ hp hs hq => run_answer hp hs hq rfl

/-- The command's frame has been sent and bytes of its answer have been taken: `q` is left in `RXQ`. -/
def takingAnswer (lo hi : Byte) (p q : List Byte) (s : State) : State := { awaitingAnswer lo hi p s with rxq := q }

@[simp] theorem takingAnswer_inFw (lo hi : Byte) (p q : List Byte) : (takingAnswer lo hi p q s).inFw = s.inFw := rfl

/-- A command and the run over its answer (R90, R106). -/
theorem run_command {p rest : List Byte} {lo hi b0 b1 b2 b3 b4 b5 b6 : Byte} {v : ResultCode × Byte}
    (hq : s.linkQuiet) (hp : p.length ≤ 255) (hrx : s.rxq = [b0, b1, b2, b3, b4, b5, b6] ++ rest)
    (hv : v = verdict lo hi b0 b1 b2 b3 b4 b5 b6) :
    run (4 + p.length + bytesRemoved v.1) (issueCommand lo hi p s) =
      .next (ended v (takingAnswer lo hi p (s.rxq.drop (bytesRemoved v.1)) s)) := by
  rw [run_add (run_issueCommand hq hp lo hi)]
  exact run_answer (s := awaitingAnswer lo hi p s) rfl hq.1 hrx hv

/-- Settles O38: the frame by `run_issueCommand`, the answer by `run_answer`, the end by `ended_outside`. -/
theorem sendcmdSendsItsFrameAndReportsTheVerdict : Obligations.SendcmdSendsItsFrameAndReportsTheVerdict := by
  intro s t opcode p rest b0 b1 b2 b3 b4 b5 b6 hidle hf hq hp hrx hexec v
  rw [exec_sendcmd_idle hidle hp] at hexec
  cases hexec
  refine ⟨_, run_command hq hp hrx rfl, ?_⟩
  have hv : CarriesStatusOnly v := verdict_carriesStatusOnly _ _ _ _ _ _ _ _ _
  rw [ended_outside (v := v) (s := takingAnswer _ _ p _ s) hf hv]
  exact ⟨rfl, rfl, rfl, rfl, rfl, rfl, rfl, toNat_lenByte hp, rfl, rfl, rfl⟩

/-- A byte other than 04 at the front of `RXQ` ends the command as soon as its frame is sent (R107). -/
theorem run_staleByte {p rest : List Byte} {b : Byte} (hq : s.linkQuiet) (hp : p.length ≤ 255) (hb : b ≠ 0x04)
    (hrx : s.rxq = b :: rest) (lo hi : Byte) :
    run (4 + p.length + 1) (issueCommand lo hi p s) =
      .next (failed .unexpectedPacketType 0 (takingAnswer lo hi p rest s)) := by
  rw [run_add (run_issueCommand hq hp lo hi)]
  exact run_speStep (s := awaitingAnswer lo hi p s) hq nofun
    ((speStep_rxType (s := awaitingAnswer lo hi p s) rfl hrx).2 hb) 0

/-- Settles O39, by the run over the stale byte. -/
theorem staleByteIsTakenForTheAnswer : Obligations.StaleByteIsTakenForTheAnswer := by
  intro s t opcode p rest b hidle hf hq hp hb hrx hexec
  rw [exec_sendcmd_idle hidle hp] at hexec
  cases hexec
  refine ⟨_, run_staleByte hq hp hb hrx _ _, ?_⟩
  rw [failed, if_neg (by simp [hf])]
  exact ⟨rfl, rfl, rfl, rfl, rfl⟩

end Sys2Proof.Machine

/-! # Proofs about loads (spec/45_fw_sequencer.md) -/

namespace Sys2Proof.Machine

open Sys2Proof.Claims

variable {s t u : State}

/-! ## Tiled images (R133) -/

/-- A record starts at `a` inside the image, and `b` is the offset behind it (R65). -/
def RecordEndsAt (p : Params) (a b : Nat) : Prop := a < p.fwSize ∧ b = a + 3 + (p.img.read (a + 2)).toNat

/-- Where the check passes there is a chain of records to the end of the image. -/
theorem exists_chain_of_tiledFrom {p : Params} {fuel a : Nat} (h : p.tiledFrom fuel a = true) :
    ∃ c, (a :: c).IsChain (RecordEndsAt p) ∧ (a :: c).getLast? = some p.fwSize := by
  induction fuel generalizing a with
  | zero =>
    obtain rfl : a = p.fwSize := of_decide_eq_true h
    exact ⟨[], .singleton _, rfl⟩
  | succ fuel ih =>
    unfold Params.tiledFrom at h
    split_ifs at h with hend hin
    · exact ⟨[], .singleton _, by rw [hend]; rfl⟩
    · obtain ⟨c, hchain, hlast⟩ := ih h
      exact ⟨_ :: c, .cons_cons ⟨Nat.lt_of_lt_of_le (Nat.lt_add_of_pos_right (by decide)) hin, rfl⟩ hchain, hlast⟩

/-- A chain of records that ends at the end of the image starts inside it. -/
theorem chain_start_le {p : Params} {a : Nat} {c : List Nat} (h : (a :: c).IsChain (RecordEndsAt p))
    (hlast : (a :: c).getLast? = some p.fwSize) : a ≤ p.fwSize := by
  cases c with
  | nil => exact (Option.some.inj hlast).le
  | cons b c =>
    obtain ⟨⟨hlt, -⟩, -⟩ := List.isChain_cons_cons.1 h
    exact hlt.le

/-- Along a chain of records the check passes: a record has at least three bytes, so it needs no more records than
bytes are left. -/
theorem tiledFrom_of_chain {p : Params} {a fuel : Nat} {c : List Nat} (h : (a :: c).IsChain (RecordEndsAt p))
    (hlast : (a :: c).getLast? = some p.fwSize) (hfuel : p.fwSize ≤ a + fuel) : p.tiledFrom fuel a = true := by
  induction c generalizing a fuel with
  | nil =>
    obtain rfl : a = p.fwSize := Option.some.inj hlast
    cases fuel <;> simp [Params.tiledFrom]
  | cons b c ih =>
    obtain ⟨⟨hlt, hb⟩, hrest⟩ := List.isChain_cons_cons.1 h
    have hin := chain_start_le hrest hlast
    cases fuel with
    | zero => omega
    | succ fuel =>
      have hhead : a + Config.recHeader ≤ p.fwSize := by
        show a + 3 ≤ p.fwSize
        omega
      rw [Params.tiledFrom, if_neg hlt.ne, if_pos hhead]
      exact hb ▸ ih hrest hlast (by omega)

/-- Settles O49, by induction on the fuel one way and on the chain the other. -/
theorem wellFormedImagesAreTheTiledOnes : Obligations.WellFormedImagesAreTheTiledOnes := by
  intro p
  constructor
  · intro h
    obtain ⟨c, hchain, hlast⟩ := exists_chain_of_tiledFrom h
    exact ⟨0 :: c, rfl, hlast, hchain⟩
  · rintro ⟨c, hfirst, hlast, hchain⟩
    obtain ⟨c, rfl⟩ := List.head?_eq_some_iff.1 hfirst
    exact tiledFrom_of_chain hchain hlast (Nat.le_add_left _ _)

/-! ## The commands of a load (R131, R132) -/

theorem run_trans {m k : Nat} (h : run m s = .next t) (h' : run k t = .next u) : run (m + k) s = .next u :=
  (run_add h k).trans h'

/-- An accepted answer to a command of a load is taken whole, and the load advances. -/
theorem run_acceptedCommand {p a q : List Byte} {lo hi : Byte} (hf : s.inFw = true) (hq : s.linkQuiet)
    (hp : p.length ≤ 255) (hrx : s.rxq = a ++ q) (ha : accepted lo hi a) :
    run (4 + p.length + 7) (issueCommand lo hi p s) = .next (advanceLoad (takingAnswer lo hi p q s)) := by
  rw [run_add (run_issueCommand hq hp lo hi), ← returnOk_inside (s := takingAnswer lo hi p q s) hf,
    returnOk_eq_succeeded]
  have hrun := fun b0 b1 b2 b3 b4 b5 b6 => @run_accepted (awaitingAnswer lo hi p s) b0 b1 b2 b3 b4 b5 b6 q rfl hq.1
  obtain rfl | ⟨c, hc, rfl⟩ := ha
  · exact hrun _ _ _ _ _ _ _ hrx (.inl rfl)
  · exact hrun _ _ _ _ _ _ _ hrx (.inr ⟨c, hc, rfl⟩)

/-- The settle delay is one step (log entry 15). -/
theorem run_settle (hq : s.linkQuiet) (hp : s.phase = .fwSettle) : run 1 s = .next (endLoad s) :=
  run_speStep hq (by simp [hp]) (speStep_settle hp) 0

/-- A failing answer to a command of a load ends the load after its settle delay (R132, R134). -/
theorem run_failingCommand {p rest : List Byte} {lo hi b0 b1 b2 b3 b4 b5 b6 : Byte} {v : ResultCode × Byte}
    (hf : s.inFw = true) (hq : s.linkQuiet) (hp : p.length ≤ 255) (hrx : s.rxq = [b0, b1, b2, b3, b4, b5, b6] ++ rest)
    (hv : v = verdict lo hi b0 b1 b2 b3 b4 b5 b6) (hok : v.1 ≠ .ok) :
    run (4 + p.length + bytesRemoved v.1 + 1) (issueCommand lo hi p s) =
      .next { takingAnswer lo hi p (s.rxq.drop (bytesRemoved v.1)) s with
        fwCode := v.1, fwInfo := v.2, fwBegin := false, phase := .idle, inFw := false
        rcode := v.1.toBits, rinfo := v.2, resps := s.resps ++ [.result v.1.toBits v.2]
        logs := s.logs ++ loggedStatus v ++ [.fwAbort v.1.toBits] } := by
  have hrun := run_command hq hp hrx hv
  rw [ended_inside (s := takingAnswer lo hi p _ s) hf hok (hv ▸ verdict_carriesStatusOnly lo hi _ _ _ _ _ _ _)] at hrun
  rw [run_add hrun]
  refine (run_settle ?_ rfl).trans rfl
  exact hq

/-! ## Records in the image (R65, R131) -/

/-- The record `r` stands in the image at offset `n`. -/
structure RecordAt (p : Params) (n : Nat) (r : Rec) : Prop where
  fits : r.payload.length ≤ 255
  inside : n + r.bytes.length ≤ p.fwSize
  bytes : ∀ i, i < r.bytes.length → p.img.read (n + i) = r.bytes.getD i 0

theorem length_bytes (r : Rec) : r.bytes.length = 3 + r.payload.length := by
  rw [Rec.bytes, List.length_append]
  rfl

/-- Records back to back stand each behind the ones before. -/
theorem recordAt_of_holdsRecords {p : Params} {before after : List Rec} {r : Rec}
    (h : holdsRecords p (before ++ r :: after)) : RecordAt p (before.flatMap Rec.bytes).length r := by
  obtain ⟨hfits, hsize, hread⟩ := h
  rw [List.flatMap_append, List.flatMap_cons, List.length_append, List.length_append] at hsize
  refine ⟨hfits r (by simp), by omega, fun i hi => ?_⟩
  rw [hread _ (by omega), List.flatMap_append, List.flatMap_cons, List.getD_append_right _ _ _ _ (by omega),
    Nat.add_sub_cancel_left, List.getD_append _ _ _ _ hi]

/-- The payload bytes behind a record's header. -/
theorem RecordAt.payload {p : Params} {n : Nat} {r : Rec} (h : RecordAt p n r) : recordPayload p n = r.payload := by
  have hlen := length_bytes r
  have hn : p.img.read (n + 2) = lenByte r.payload := h.bytes 2 (by omega)
  refine List.ext_getElem ?_ fun i hi hi' => ?_
  · rw [length_recordPayload, hn, toNat_lenByte h.fits]
  · have hbyte := h.bytes (3 + i) (by omega)
    simp only [recordPayload, List.getElem_map, List.getElem_range, Nat.add_assoc, hbyte, Rec.bytes]
    rw [List.getD_append_right _ _ _ _ (by simp)]
    simp [hi']

/-- Between commands, with the cursor at a record, the SPE issues that record (R131). -/
theorem RecordAt.issue {r : Rec} (h : RecordAt s.par s.cursor.toNat r) (hp : s.phase = .fwNext) :
    speStep s = .next (issueCommand r.lo r.hi r.payload s) := by
  have hlen := length_bytes r
  have hlo : s.par.img.read s.cursor.toNat = r.lo := h.bytes 0 (by omega)
  have hhi : s.par.img.read (s.cursor.toNat + 1) = r.hi := h.bytes 1 (by omega)
  have hn : s.par.img.read (s.cursor.toNat + 2) = lenByte r.payload := h.bytes 2 (by omega)
  have hin := h.inside
  rw [speStep_fwNext hp, nextRecord_record (by rw [hn, toNat_lenByte h.fits]; omega), hlo, hhi, h.payload,
    exec_frameFwrec_fwNext hp h.fits]

/-! ## The run over the records (R135) -/

/-- `u` is between the commands of a load that was issued in `s`: `n` is the cursor, `sent` what the load has sent, `q`
what is left in `RXQ`; every command so far has ended with `Ok`. -/
structure BetweenRecords (s : State) (n : Nat) (sent q : List Byte) (u : State) : Prop where
  phase : u.phase = .fwNext
  inFw : u.inFw = true
  fwBegin : u.fwBegin = false
  quiet : u.linkQuiet
  par : u.par = s.par
  cursor : u.cursor.toNat = n
  txs : u.txs = s.txs ++ sent
  rxq : u.rxq = q
  logs : u.logs = s.logs
  resps : u.resps = s.resps
  fwCode : u.fwCode = .ok
  fwInfo : u.fwInfo = 0

/-- Where `LOADFW` gives a next state, it has issued the begin-load command (R130). -/
theorem exec_loadfw_next (h : s.phase = .idle) (hexec : exec .loadfw s = .next t) :
    t = issueCommand (lowByte s.par.fwBeginOpcode) (highByte s.par.fwBeginOpcode) []
      { s with inFw := true, fwBegin := true } := by
  cases hw : s.par.imageWellFormed with
  | true => exact (Host.Outcome.next.inj ((exec_loadfw_idle h hw).symm.trans hexec)).symm
  | false =>
    rw [exec_loadfw_refused h hw] at hexec
    cases hexec

/-- The begin-load command is answered well: the load is at its first record (R130). -/
theorem run_beginLoad {a q : List Byte} (hidle : s.phase = .idle) (hq : s.linkQuiet)
    (ha : accepted (lowByte s.par.fwBeginOpcode) (highByte s.par.fwBeginOpcode) a) (hrx : s.rxq = a ++ q)
    (hexec : exec .loadfw s = .next t) :
    ∃ u, run 11 t = .next u ∧ BetweenRecords s 0
      (frameBytes (lowByte s.par.fwBeginOpcode) (highByte s.par.fwBeginOpcode) []) q u := by
  rw [exec_loadfw_next hidle hexec]
  refine ⟨_, run_acceptedCommand (s := { s with inFw := true, fwBegin := true }) rfl hq (Nat.zero_le _) hrx ha, ?_⟩
  exact ⟨rfl, rfl, rfl, hq, rfl, rfl, rfl, rfl, rfl, rfl, rfl, rfl⟩

/-- One record is sent and answered well: the cursor goes on behind it (R131). -/
theorem BetweenRecords.record {n : Nat} {sent a q : List Byte} {r : Rec} (h : BetweenRecords s n sent (a ++ q) u)
    (hsize : s.par.fwSize < 2 ^ 31) (hr : RecordAt s.par n r) (ha : accepted r.lo r.hi a) :
    ∃ k w, run k u = .next w ∧
      BetweenRecords s (n + r.bytes.length) (sent ++ frameBytes r.lo r.hi r.payload) q w := by
  obtain ⟨hphase, hf, hb, hq, hpar, hcursor, htxs, hrx, hlogs, hresps, hcode, hinfo⟩ := h
  have hissue := RecordAt.issue (s := u) (r := r) (by rwa [hpar, hcursor]) hphase
  have hlen := length_bytes r
  have hin := hr.inside
  have hn : (lenByte r.payload).toNat = r.payload.length := toNat_lenByte hr.fits
  refine ⟨_, _, run_trans (run_speStep hq (by simp [hphase]) hissue 0)
    (run_acceptedCommand hf hq hr.fits hrx ha), rfl, hf, rfl, hq, hpar, ?_, ?_, rfl, hlogs, hresps, rfl, rfl⟩
  · rw [advanceLoad_cursor, if_neg (by simp [takingAnswer, awaitingAnswer, sending, hb])]
    show (u.cursor + BitVec.ofNat 32 Config.recHeader + (lenByte r.payload).setWidth 32).toNat = _
    rw [toNat_cursor_advance hsize] <;> simp only [hcursor, hn, Config.recHeader] <;> omega
  · show u.txs ++ frameBytes r.lo r.hi r.payload = _
    rw [htxs, List.append_assoc]

/-- The records are sent once each, in order, all answered well (R131). -/
theorem BetweenRecords.records {before rs after : List Rec} {sent q : List Byte} {as : List (List Byte)}
    (h : BetweenRecords s (before.flatMap Rec.bytes).length sent (as.flatten ++ q) u) (hsize : s.par.fwSize < 2 ^ 31)
    (himage : holdsRecords s.par (before ++ rs ++ after)) (has : allAccepted rs as) :
    ∃ k w, run k u = .next w ∧
      BetweenRecords s ((before ++ rs).flatMap Rec.bytes).length (sent ++ recordFrames rs) q w := by
  induction rs generalizing before as sent u with
  | nil =>
    obtain rfl : as = [] := has
    exact ⟨0, u, rfl, by simpa [recordFrames] using h⟩
  | cons r rs ih =>
    cases as with
    | nil => cases has
    | cons a as =>
      obtain ⟨ha, has⟩ := has
      rw [List.append_assoc] at himage
      rw [List.flatten_cons, List.append_assoc] at h
      obtain ⟨k, w, hrun, hw⟩ := h.record hsize (recordAt_of_holdsRecords himage) ha
      obtain ⟨k', w', hrun', hw'⟩ := ih (before := before ++ [r]) (by simpa using hw) (by simpa using himage) has
      exact ⟨k + k', w', run_trans hrun hrun', by simpa [recordFrames] using hw'⟩

/-- No record remains: the load passes the settle delay and ends (R130, R134). -/
theorem BetweenRecords.end {sent q : List Byte} (h : BetweenRecords s s.par.fwSize sent q u) :
    run 2 u = .next (endLoad (goto .fwSettle u)) := by
  have hlast : u.par.fwSize ≤ u.cursor.toNat := by rw [h.par, h.cursor]
  have hstep := (loadEndsAfterTheSettleDelay u).1 h.phase hlast
  exact run_trans (run_speStep h.quiet (by simp [h.phase]) hstep 0) (run_settle (s := goto .fwSettle u) h.quiet rfl)

/-- Settles O51: the begin-load command, the records by induction on their list, and the end. -/
theorem loadOfAGoodImageSendsEveryRecord : Obligations.LoadOfAGoodImageSendsEveryRecord := by
  intro s t rs a0 rest as hidle hq hsize himage ha0 has hrx hexec
  rw [List.append_assoc] at hrx
  obtain ⟨u, hbegin, hu⟩ := run_beginLoad hidle hq ha0 hrx hexec
  obtain ⟨k, w, hrecords, hw⟩ := BetweenRecords.records (before := []) (after := []) hu hsize (by simpa using himage) has
  rw [List.nil_append, ← himage.2.1] at hw
  refine ⟨11 + k + 2, endLoad (goto .fwSettle w), run_trans (run_trans hbegin hrecords) hw.end, rfl, rfl,
    congrArg ResultCode.toBits hw.fwCode, hw.fwInfo, hw.cursor, hw.rxq, hw.logs, ?_,
    hw.txs.trans (List.append_assoc _ _ _).symm⟩
  rw [endLoad_resps, goto_resps, goto_fwCode, goto_fwInfo, hw.resps, hw.fwCode, hw.fwInfo]
  rfl

/-- Settles O52: the records before the failing one by induction on their list, then its command, whose answer ends the
load. -/
theorem loadAbortsAtTheFirstFailingRecord : Obligations.LoadAbortsAtTheFirstFailingRecord := by
  intro s t done later r a0 rest as b0 b1 b2 b3 b4 b5 b6 hidle hq hsize himage ha0 has hok hrx hexec v
  rw [List.append_assoc] at hrx
  obtain ⟨u, hbegin, hu⟩ := run_beginLoad hidle hq ha0 hrx hexec
  obtain ⟨k, w, hrecords, hw⟩ := BetweenRecords.records (before := []) hu hsize himage has
  obtain ⟨hphase, hf, -, hquiet, hpar, hcursor, htxs, hrxq, hlogs, hresps, -, -⟩ := hw
  have hr := recordAt_of_holdsRecords himage
  have hissue := RecordAt.issue (s := w) (r := r) (by rwa [hpar, hcursor]) hphase
  refine ⟨_, _, run_trans (run_trans hbegin hrecords) (run_trans (run_speStep hquiet (by simp [hphase]) hissue 0)
    (run_failingCommand hf hquiet hr.fits hrxq rfl hok)), rfl, rfl, rfl, rfl, hcursor, ?_, ?_, ?_, ?_⟩
  · exact congrArg _ hrxq
  · show w.logs ++ loggedStatus v ++ _ = _
    rw [hlogs]
    rfl
  · show w.resps ++ _ = _
    rw [hresps]
  · show w.txs ++ frameBytes r.lo r.hi r.payload = _
    rw [htxs]
    simp only [List.append_assoc]
    rfl

/-- Settles O53: the begin-load command is a command of the load, and its failing answer ends it. -/
theorem failingBeginLoadSendsNoRecord : Obligations.FailingBeginLoadSendsNoRecord := by
  intro s t b0 b1 b2 b3 b4 b5 b6 rest hidle hq hrx hexec lo hi v hok
  rw [exec_loadfw_next hidle hexec]
  exact ⟨_, run_failingCommand (s := { s with inFw := true, fwBegin := true }) rfl hq (Nat.zero_le _) hrx rfl hok,
    rfl, rfl, rfl, rfl, rfl, rfl, rfl⟩

end Sys2Proof.Machine

/-! # Proofs about the requests of the clients (spec/46_clients.md) -/

namespace Sys2Proof.Machine

open Sys2Proof.Claims

variable {s t : State}

/-! ## A request of a dutiful host (R140) -/

/-- With nothing scheduled and an idle SPE, the host's next request runs. -/
theorem step_request {i : Instr} {q : List HostItem} (hp : s.phase = .idle) (hs : s.sched = [])
    (hspace : i.space = .request) (hi : i.wellFormed = true) (hh : s.hostq = .request (encode i) :: q) :
    step s = exec i { s with hostq := q } :=
  (stepRunsTheDecodedRequest s (encode i) [] i q (.inl ⟨hspace ▸ decode_encode hi, hh⟩)).2 hs hp

/-! ## Sequences of `WRBYTE` (R66, R73, R153) -/

/-- From `s`, the bytes `bs` have been sent and nothing has been received: the SPE is idle, with `q` the requests the
host has still to make. -/
def SentOnly (bs : List Byte) (q : List HostItem) (s u : State) : Prop :=
  u.phase = .idle ∧ u.txs = s.txs ++ bs ∧ u.rxq = s.rxq ∧ u.rcode = s.rcode ∧ u.rinfo = s.rinfo ∧ u.hostq = q

/-- A `WRBYTE` in progress and those the host makes next send one byte each, in two steps each but the first. -/
theorem run_wrbytes {bs : List Byte} {q : List HostItem} (hp : s.phase = .tWrbyte) (hq : s.linkQuiet)
    (hh : s.hostq = wrbyteItems bs ++ q) :
    ∃ u, run (1 + 2 * bs.length) s = .next u ∧ SentOnly (s.portByte :: bs) q s u := by
  have hsend := run_speStep hq (by simp [hp]) (speStep_wrbyte_free hp hq.2)
  induction bs generalizing s with
  | nil => exact ⟨_, hsend 0, rfl, rfl, rfl, rfl, rfl, hh⟩
  | cons b bs ih =>
    have hrequest := (step_request (s := respond .done (goto .idle { s with txs := s.txs ++ [s.portByte] }))
      rfl hq.1 rfl rfl hh).trans (exec_wrbyte_idle rfl b)
    obtain ⟨u, hrun, hphase, htxs, hrest⟩ := ih (s := goto .tWrbyte { s with
      txs := s.txs ++ [s.portByte], resps := s.resps ++ [.done], hostq := wrbyteItems bs ++ q, portByte := b })
      rfl hq rfl (run_speStep (by exact hq) (by simp) (speStep_wrbyte_free rfl hq.2))
    refine ⟨u, ?_, hphase, ?_, hrest⟩
    · rw [List.length_cons, show 1 + 2 * (bs.length + 1) = 1 + 2 * bs.length + 1 + 1 by omega, hsend,
        run_succ hrequest]
      exact hrun
    · rw [htxs]
      exact List.append_assoc _ _ _

theorem exec_frameAcl_idle (h : s.phase = .idle) (handle totalLen l2capLen gatt : List Byte) :
    exec (.frameAcl handle totalLen l2capLen gatt) s = .next (goto .tWrbyte { s with
      hostq := wrbyteItems (handle ++ (totalLen ++ (l2capLen ++ (aclCidField ++ gatt)))) ++ s.hostq
      portByte := Config.pktAcl }) := by
  rw [exec, execFrameAcl]
  generalize wrbyteItems _ ++ s.hostq = q
  exact exec_wrbyte_idle (s := { s with hostq := q }) h Config.pktAcl

/-- Settles O56: the type byte's `WRBYTE` starts, and the others follow (`run_wrbytes`). -/
theorem aclFrameIsSentByteByByte : Obligations.AclFrameIsSentByteByByte := by
  intro s handle totalLen l2capLen gatt hidle fields
  refine ⟨_, exec_frameAcl_idle hidle handle totalLen l2capLen gatt, rfl, rfl, fun hq => ?_⟩
  have hfields : handle ++ (totalLen ++ (l2capLen ++ (aclCidField ++ gatt))) = fields := by
    simp only [fields, List.append_assoc]
  rw [hfields]
  obtain ⟨u, hrun, hphase, htxs, hrest⟩ := run_wrbytes
    (s := goto .tWrbyte { s with hostq := wrbyteItems fields ++ s.hostq, portByte := Config.pktAcl }) rfl hq rfl
  exact ⟨u, hrun, hphase, htxs.trans (List.append_assoc s.txs [0x02] fields).symm, hrest⟩

/-! ## `setBaudRate(115200)` (R144) -/

/-- The bytes of the vendor command's opcode: `OCF` 0x18, and the vendor group shifted left by two (S7). -/
theorem baudOpcode_bytes (g : BitVec 6) :
    lowByte (composeOpcode g Config.ocfSetBaud) = 0x18 ∧
      highByte (composeOpcode g Config.ocfSetBaud) = g.setWidth 8 <<< 2 := by
  refine ⟨lowByte_composeOpcode g _, ?_⟩
  apply BitVec.eq_of_toNat_eq
  have hg := g.isLt
  rw [toNat_highByte, toNat_composeOpcode]
  simp [Nat.shiftLeft_eq]
  omega

/-- The payload of `setBaudRate(115200)` (R144). -/
def baudPayload : List Byte := [0x00, 0x00, 0x00, 0xC2, 0x01, 0x00]

/-- The opcode of `setBaudRate` (R144). -/
def baudOpcode : Word16 := composeOpcode Config.ogfVendor Config.ocfSetBaud

/-- The second request of `setBaudRate(115200)`. -/
def baudCommand : HostItem := .request (encode (.sendcmd baudOpcode baudPayload))

theorem items_setBaudRate : Client.items (Client.setBaudRate 115200) =
    [.request (encode (.mkop Config.ogfVendor Config.ocfSetBaud)), baudCommand] :=
  rfl

/-- Both requests of `setBaudRate(115200)` are made in turn: the first answers, the second issues the command. -/
theorem run_setBaudRate (hidle : s.phase = .idle) (hq : s.linkQuiet)
    (hh : s.hostq = Client.items (Client.setBaudRate 115200)) :
    ∃ t, exec (.sendcmd baudOpcode baudPayload) (respond (.word baudOpcode) { s with hostq := [] }) = .next t ∧
      ∀ k, run (k + 2) s = run k t := by
  have hmkop : step s = .next (respond (.word baudOpcode) { s with hostq := [baudCommand] }) :=
    (step_request hidle hq.1 rfl rfl (hh.trans items_setBaudRate)).trans
      (answer_idle (s := { s with hostq := [baudCommand] }) hidle (.word baudOpcode))
  have hsend := exec_sendcmd_idle (s := respond (.word baudOpcode) { s with hostq := [] }) hidle (p := baudPayload)
    (by decide) baudOpcode
  have hcommand := (step_request (s := respond (.word baudOpcode) { s with hostq := [baudCommand] }) hidle hq.1 rfl rfl
    rfl).trans hsend
  exact ⟨_, hsend, fun k => by rw [run_succ hmkop, run_succ hcommand]⟩

/-- Settles O59: `MKOP` answers, and the `SENDCMD` issued behind it sends its frame and reports the accepted answer, as
O38 says of every command. -/
theorem baudRateClientSendsTenBytes : Obligations.BaudRateClientSendsTenBytes := by
  intro s rest hidle hf hq hh h hrx
  obtain ⟨t, hexec, hrun⟩ := run_setBaudRate hidle hq hh
  obtain ⟨hlo, hhi⟩ : baudOpcode.extractLsb' 0 8 = 0x18 ∧ baudOpcode.extractLsb' 8 8 = h :=
    baudOpcode_bytes Config.ogfVendor
  have hverdict : verdict 0x18 h 0x04 0x0e 0x04 0x01 0x18 h 0x00 = (.ok, 0) := by simp [verdict]
  obtain ⟨u, hu, hphase, hcode, -, -, htxs, hrxq, -, -, -, hhostq, -⟩ :=
    sendcmdSendsItsFrameAndReportsTheVerdict (respond (.word baudOpcode) { s with hostq := [] }) t baudOpcode baudPayload
      rest 0x04 0x0e 0x04 0x01 0x18 h 0x00 hidle hf hq (by decide) hrx hexec
  rw [hlo, hhi, hverdict] at hu hcode hrxq
  rw [hlo, hhi] at htxs
  exact ⟨u, (hrun 17).trans hu, hphase, hcode, hhostq, hrxq.trans (congrArg (List.drop 7) hrx), htxs⟩

end Sys2Proof.Machine
